-- ==== Sys2Proof/Word.lean ====
section
/-! DEFINITION. The two word types of the core: the byte, an unsigned element of GF(2^8) (R4), and the
32-bit word that every register holds (R21). -/

namespace Sys2Proof

/-- A 32-bit register value (R21). -/
abbrev Word := BitVec 32

/-- "Every byte in the core is an unsigned 8-bit value in 0..255 and an element of GF(2^8)." (R4) -/
abbrev Byte := BitVec 8

end Sys2Proof
end

