-- ==== Sys2Proof/Syntax.lean ====
section
/-! DEFINITION. The commands of the core, one constructor for each row of opcode_table.json (R83). The two
operand fields a command word can carry, RND and LEN, are unsigned numbers (R82); no command word carries
a register number. -/

namespace Sys2Proof

/-- A command of the core (R83). `rnd` is the round index in bits [11:8], `len` the declared operand length
in bytes in bits [23:16] (R80, R82). -/
inductive Instr where
  /-- NOP (R216). -/
  | nop
  /-- GF_MUL (R102). -/
  | gfMul
  /-- GF_ADD (R104). -/
  | gfAdd
  /-- ROT_WORD (R123). -/
  | rotWord
  /-- SUB_WORD (R124). -/
  | subWord
  /-- RCON (R125). -/
  | rcon
  /-- KEY_EXPAND (R127). -/
  | keyExpand (len : Nat)
  /-- SBOX (R150). -/
  | sbox
  /-- INV_SBOX (R151). -/
  | invSbox
  /-- SUB_BYTES (R153). -/
  | subBytes
  /-- INV_SUB_BYTES (R154). -/
  | invSubBytes
  /-- SHIFT_ROWS (R156). -/
  | shiftRows
  /-- INV_SHIFT_ROWS (R157). -/
  | invShiftRows
  /-- MIX_COLUMNS (R160). -/
  | mixColumns
  /-- INV_MIX_COLUMNS (R161). -/
  | invMixColumns
  /-- ADD_ROUND_KEY (R163). -/
  | addRoundKey (rnd : Nat)
  /-- ADD_ROUND_KEY_IMC (R164). -/
  | addRoundKeyImc (rnd : Nat)
  /-- ENCRYPT (R191). -/
  | encrypt (len : Nat)
  /-- DECRYPT (R193). -/
  | decrypt (len : Nat)
  deriving DecidableEq, Repr

end Sys2Proof
end

