-- ==== Sys2Proof/WellFormed.lean ====
section
/-! DEFINITION. Which terms of `Instr` are commands a command word can carry: RND fits its 4-bit field and
LEN its 8-bit field (R80, R82). A value that fits but names nothing (RND = 15, LEN = 31) IS well formed:
"It is checked when the command executes" (R86). -/

namespace Sys2Proof

/-- RND fits bits [11:8]: "0..15; only 0..14 name a round key" (R82). -/
def rndFits (rnd : Nat) : Bool := decide (rnd < 16)

/-- LEN fits bits [23:16]: "0..255 bytes" (R82). -/
def lenFits (len : Nat) : Bool := decide (len < 256)

/-- The command's fields fit the command word (R80 to R82). -/
def Instr.wellFormed : Instr → Bool
  | .nop => true
  | .gfMul => true
  | .gfAdd => true
  | .rotWord => true
  | .subWord => true
  | .rcon => true
  | .keyExpand len => lenFits len
  | .sbox => true
  | .invSbox => true
  | .subBytes => true
  | .invSubBytes => true
  | .shiftRows => true
  | .invShiftRows => true
  | .mixColumns => true
  | .invMixColumns => true
  | .addRoundKey rnd => rndFits rnd
  | .addRoundKeyImc rnd => rndFits rnd
  | .encrypt len => lenFits len
  | .decrypt len => lenFits len

end Sys2Proof
end

