-- ==== Sys2Proof/Decode.lean ====
section
/-! DEFINITION. Reading a command word and writing one (30_encoding.md). The decoder is the opcode table of
R83, row by row; a word that no row selects is rejected by name (R85). The encoder is R84. -/

namespace Sys2Proof

/-- The operation code OP, bits [7:0] (R80). -/
def fieldOp (w : Word) : Byte := w.extractLsb' 0 8

/-- The round index RND, bits [11:8], zero-extended (R80, R82). -/
def fieldRnd (w : Word) : Nat := (w.extractLsb' 8 4).toNat

/-- The reserved field RSV0, bits [15:12] (R80). -/
def fieldRsv0 (w : Word) : Nat := (w.extractLsb' 12 4).toNat

/-- The declared length LEN, bits [23:16], zero-extended (R80, R82). -/
def fieldLen (w : Word) : Nat := (w.extractLsb' 16 8).toNat

/-- The reserved field RSV1, bits [31:24] (R80). -/
def fieldRsv1 (w : Word) : Nat := (w.extractLsb' 24 8).toNat

/-- The field classes of R81: which fields a command uses. -/
inductive FieldClass where
  /-- OP only. -/
  | N
  /-- OP and RND. -/
  | R
  /-- OP and LEN. -/
  | L
  deriving DecidableEq, Repr

/-- The bits a word of the class is compared in: all but the operand fields the class uses (R81, R83). -/
def FieldClass.mask : FieldClass → Word
  | .N => 0xFFFFFFFF
  | .R => 0xFFFFF0FF
  | .L => 0xFF00FFFF

/-- One row of R83's table. `build` makes the command from the fields RND and LEN. -/
structure OpcodeRow where
  mnemonic : String
  cls : FieldClass
  pattern : Word
  mask : Word
  build : (rnd len : Nat) → Instr

/-- "A word w selects a row when `(w & mask) == match`." (R83) -/
def OpcodeRow.selects (r : OpcodeRow) (w : Word) : Bool := w &&& r.mask == r.pattern

/-- R83's rows 0x00 to 0x18. -/
def opcodeRowsA : List OpcodeRow :=
  [ ⟨"NOP", .N, 0x00000000, 0xFFFFFFFF, fun _ _ => .nop⟩,
    ⟨"GF_MUL", .N, 0x00000001, 0xFFFFFFFF, fun _ _ => .gfMul⟩,
    ⟨"GF_ADD", .N, 0x00000002, 0xFFFFFFFF, fun _ _ => .gfAdd⟩,
    ⟨"ROT_WORD", .N, 0x00000010, 0xFFFFFFFF, fun _ _ => .rotWord⟩,
    ⟨"SUB_WORD", .N, 0x00000011, 0xFFFFFFFF, fun _ _ => .subWord⟩,
    ⟨"RCON", .N, 0x00000012, 0xFFFFFFFF, fun _ _ => .rcon⟩,
    ⟨"KEY_EXPAND", .L, 0x00000018, 0xFF00FFFF, fun _ len => .keyExpand len⟩ ]

/-- R83's rows 0x20 to 0x35. -/
def opcodeRowsB : List OpcodeRow :=
  [ ⟨"SBOX", .N, 0x00000020, 0xFFFFFFFF, fun _ _ => .sbox⟩,
    ⟨"INV_SBOX", .N, 0x00000021, 0xFFFFFFFF, fun _ _ => .invSbox⟩,
    ⟨"SUB_BYTES", .N, 0x00000030, 0xFFFFFFFF, fun _ _ => .subBytes⟩,
    ⟨"INV_SUB_BYTES", .N, 0x00000031, 0xFFFFFFFF, fun _ _ => .invSubBytes⟩,
    ⟨"SHIFT_ROWS", .N, 0x00000032, 0xFFFFFFFF, fun _ _ => .shiftRows⟩,
    ⟨"INV_SHIFT_ROWS", .N, 0x00000033, 0xFFFFFFFF, fun _ _ => .invShiftRows⟩,
    ⟨"MIX_COLUMNS", .N, 0x00000034, 0xFFFFFFFF, fun _ _ => .mixColumns⟩,
    ⟨"INV_MIX_COLUMNS", .N, 0x00000035, 0xFFFFFFFF, fun _ _ => .invMixColumns⟩ ]

/-- R83's rows 0x36 to 0x41. -/
def opcodeRowsC : List OpcodeRow :=
  [ ⟨"ADD_ROUND_KEY", .R, 0x00000036, 0xFFFFF0FF, fun rnd _ => .addRoundKey rnd⟩,
    ⟨"ADD_ROUND_KEY_IMC", .R, 0x00000037, 0xFFFFF0FF, fun rnd _ => .addRoundKeyImc rnd⟩,
    ⟨"ENCRYPT", .L, 0x00000040, 0xFF00FFFF, fun _ len => .encrypt len⟩,
    ⟨"DECRYPT", .L, 0x00000041, 0xFF00FFFF, fun _ len => .decrypt len⟩ ]

/-- The opcode map of R83, 19 rows. -/
def opcodeTable : List OpcodeRow := opcodeRowsA ++ opcodeRowsB ++ opcodeRowsC

/-- Why a command word is illegal: the two groups of illegal words of R85. -/
inductive DecodeError where
  /-- The word's OP is not in the table. -/
  | undefinedOp
  /-- The word's OP is in the table and a field its class requires to be 0 is not 0. -/
  | unusedFieldNonzero
  deriving DecidableEq, Repr

/-- Whether some row has the word's OP (R85). -/
def opIsListed (w : Word) : Bool := opcodeTable.any fun r => fieldOp r.pattern == fieldOp w

/-- The command a word stands for, or why it is illegal (R83, R85). The core tells the two kinds of illegal
word apart nowhere: both end with IllegalCommand (R238). -/
def decode (w : Word) : Except DecodeError Instr :=
  match opcodeTable.find? (fun r => r.selects w) with
  | some r => .ok (r.build (fieldRnd w) (fieldLen w))
  | none => if opIsListed w then .error .unusedFieldNonzero else .error .undefinedOp

/-- The command an instruction of the opcode table stands for, its bits given as one number: bit 0 is the
word's least significant bit, and a command has no bits above its one 32-bit word (R80, R87). -/
def decodeTableWord (nbits w : Nat) : Option Instr :=
  if nbits ≤ 32 then (decode (BitVec.ofNat 32 (w % 2 ^ nbits))).toOption else none

/-- `OP(MNEM)` of R83. -/
def Instr.op : Instr → Byte
  | .nop => 0x00
  | .gfMul => 0x01
  | .gfAdd => 0x02
  | .rotWord => 0x10
  | .subWord => 0x11
  | .rcon => 0x12
  | .keyExpand _ => 0x18
  | .sbox => 0x20
  | .invSbox => 0x21
  | .subBytes => 0x30
  | .invSubBytes => 0x31
  | .shiftRows => 0x32
  | .invShiftRows => 0x33
  | .mixColumns => 0x34
  | .invMixColumns => 0x35
  | .addRoundKey _ => 0x36
  | .addRoundKeyImc _ => 0x37
  | .encrypt _ => 0x40
  | .decrypt _ => 0x41

/-- The RND a command is encoded with: "rnd is 0 for classes N and L" (R84). -/
def Instr.rnd : Instr → Nat
  | .nop => 0
  | .gfMul => 0
  | .gfAdd => 0
  | .rotWord => 0
  | .subWord => 0
  | .rcon => 0
  | .keyExpand _ => 0
  | .sbox => 0
  | .invSbox => 0
  | .subBytes => 0
  | .invSubBytes => 0
  | .shiftRows => 0
  | .invShiftRows => 0
  | .mixColumns => 0
  | .invMixColumns => 0
  | .addRoundKey rnd => rnd
  | .addRoundKeyImc rnd => rnd
  | .encrypt _ => 0
  | .decrypt _ => 0

/-- The LEN a command is encoded with: "len is 0 for classes N and R" (R84). -/
def Instr.len : Instr → Nat
  | .nop => 0
  | .gfMul => 0
  | .gfAdd => 0
  | .rotWord => 0
  | .subWord => 0
  | .rcon => 0
  | .keyExpand len => len
  | .sbox => 0
  | .invSbox => 0
  | .subBytes => 0
  | .invSubBytes => 0
  | .shiftRows => 0
  | .invShiftRows => 0
  | .mixColumns => 0
  | .invMixColumns => 0
  | .addRoundKey _ => 0
  | .addRoundKeyImc _ => 0
  | .encrypt len => len
  | .decrypt len => len

/-- `enc(MNEM, rnd, len)`: OP in bits [7:0], the low 4 bits of rnd in [11:8], the low 8 bits of len in
[23:16], 0 elsewhere (R80, R84). -/
def encodeFields (op : Byte) (rnd len : Nat) : Word :=
  (0 : BitVec 8) ++ BitVec.ofNat 8 len ++ (0 : BitVec 4) ++ BitVec.ofNat 4 rnd ++ op

/-- The command word of a well-formed command (R84). -/
def encode (i : Instr) : Word := encodeFields i.op i.rnd i.len

end Sys2Proof
end

