-- ==== Sys2Proof/Config.lean ====
section
/-! DEFINITION. What is fixed for the machine and does not change while it runs: the AES-256 parameters
(R2), the size of the register window (R60), and the two open values of the spec: the window's base
address BASE and the unspecified values the core may show (93_implementation_defined.md, `any value`). -/

namespace Sys2Proof.Config

/-- Number of State columns (R2). -/
abbrev Nb : Nat := 4

/-- Number of key words (R2). -/
abbrev Nk : Nat := 8

/-- Number of rounds (R2). -/
abbrev Nr : Nat := 14

/-- Size in bytes of the register window (R60). -/
abbrev windowSize : Nat := 0x200

/-- Which multiple of the window size BASE is. An open parameter, so it has no body that a proof could
use (R60, D2, U4). -/
opaque baseIndex : Nat

/-- `BASE`, "a multiple of 0x200" (R60). -/
def base : Nat := windowSize * baseIndex

/-- The unspecified 32-bit values of the spec, one for each draw. "A value the model draws freely each
time, with no law linking draws" (93_implementation_defined.md, treatment `any value`); assumption 3. -/
opaque freeWord : Nat → Word

/-- The unspecified 32-bit values in a run's observable result (R218, U8, U11), by the count of draws before
it and the register's offset. Apart from `freeWord`, so that no law links them to a host's reads;
assumption 3. -/
opaque freeObserved : (draws offset : Nat) → Word

end Sys2Proof.Config
end

