-- ==== Sys2Proof/Machine/State.lean ====
section
/-! DEFINITION. The state of the core (10_state.md), of the host agents that drive it (20_memory.md,
44_host_access.md), and of the schedule that says which agent acts next. Plain data throughout. -/

namespace Sys2Proof.Machine

/-- KEY0..KEY7, "one word per register" (R22). -/
abbrev Key := Vector Word 8

/-- A 4×4 State of bytes, held as STATE0..STATE3 hold it: word c is column c, and the word's byte r is row r
(R24). A round key has "the same layout as State" (R29). -/
abbrev Block := Vector Word 4

/-- The schedule store `W[0..59]` (R29). -/
abbrev Schedule := Vector Word 60

/-- The operand values a command reads, as they stand at its issue (R214:
`snapshot <- (x[KEY0..7], x[STATE0..3], x[OPND], W[0..59], STATUS.KEY_VALID)`). -/
structure Snapshot where
  key : Key
  block : Block
  opnd : Word
  sched : Schedule
  keyValid : Bool
  deriving DecidableEq, Repr

/-- A command in flight: the sequencer's hidden state (R40, R214). -/
structure Flight where
  /-- "the command word being executed" (R40), any 32-bit value, legal or not (R214). -/
  cmd : Word
  /-- The operands latched at issue (R214). -/
  snap : Snapshot
  /-- "a working copy of the State" (R40): STATE0..3 at issue, then what the rounds done make of it. -/
  work : Block
  /-- How many of the 15 AddRoundKey steps of ENCRYPT or DECRYPT are done (R196). The "current round number"
  of R40 is `stepsDone` while encrypting and `14 - stepsDone` while decrypting. -/
  stepsDone : Nat
  deriving DecidableEq, Repr

/-- How a host names the place it accesses: an offset in the window, which is what every rule of the spec
uses, or a byte address, which the window's `BASE` turns into an offset (R60). -/
inductive Place where
  | off (o : Nat)
  | addr (a : Nat)
  deriving DecidableEq, Repr

/-- A host-side value: a literal, a host variable, or what the programs of the spec compute from them
(R88, "host-side control flow; it touches no core state"). -/
inductive HostExpr where
  | lit (v : Word)
  | var (t : Nat)
  | add (a b : HostExpr)
  | sub (a b : HostExpr)
  | or (a b : HostExpr)
  | xor (a b : HostExpr)
  | shl (a : HostExpr) (n : Nat)
  deriving DecidableEq, Repr

/-- The condition of `if cond goto label` (R88). All comparisons are unsigned (00_scope.md section 4). -/
inductive HostCond where
  | eq (a b : HostExpr)
  | ne (a b : HostExpr)
  | lt (a b : HostExpr)
  | le (a b : HostExpr)
  /-- `t[i] == 1`. -/
  | bit (a : HostExpr) (i : Nat)
  deriving DecidableEq, Repr

/-- A statement of a host program (R88). A label is the index of the statement it stands before. An access
carries its width in bytes, so that the accesses R62 forbids can be written too. -/
inductive HostStmt where
  /-- `WR NAME, v`. -/
  | wr (p : Place) (width : Nat) (v : HostExpr)
  /-- `RD NAME -> t`. -/
  | rd (p : Place) (width : Nat) (t : Nat)
  /-- `t <- v`, an assignment between host variables. -/
  | set (t : Nat) (v : HostExpr)
  /-- `goto label`. -/
  | goto (target : Nat)
  /-- `if cond goto label`. -/
  | ifGoto (c : HostCond) (target : Nat)
  deriving DecidableEq, Repr

/-- The host's variables: key and value pairs, keys strictly rising, no value 0; an unlisted variable
reads 0 (assumption 6). -/
abbrev HostVars := List (Nat × Word)

/-- One host agent: its program, the statement it is at, and its variables (R20, R88, R246). -/
structure HostAgent where
  prog : List HostStmt
  pc : Nat
  vars : HostVars
  deriving DecidableEq, Repr

/-- Which agent acts next. The spec leaves this order free: "free scheduling of the sequencer's completion
step under weak fairness" (R272), hosts whose "accesses interleave one at a time" (R246), and a reset that
"the platform may assert at any time" (R261). -/
inductive Turn where
  /-- Host `k` performs its next statement. -/
  | host (k : Nat)
  /-- The sequencer spends one cycle of `LAT(op)` on the command in flight, without completing it. -/
  | cycle
  /-- The sequencer takes its completion step (R215). -/
  | complete
  /-- The platform asserts reset (R261). -/
  | reset
  deriving DecidableEq, Repr

/-- The state of the core and of what drives it. -/
structure State where
  /-- KEY0..KEY7 (R22). -/
  key : Key
  /-- STATE0..STATE3 (R23, R24). -/
  block : Block
  /-- OPND (R25). -/
  opnd : Word
  /-- RESULT (R26). -/
  result : Word
  /-- The schedule store W[0..59], read by the host as RKW0..RKW59 (R29, R30). -/
  sched : Schedule
  /-- STATUS.KEY_VALID (R32). -/
  keyValid : Bool
  /-- STATUS.ERRCODE; STATUS.ERR is computed from it (R33). -/
  errcode : BitVec 4
  /-- The command in flight; STATUS.BUSY is 1 exactly when there is one (R31, R40). -/
  flight : Option Flight
  /-- The host agents on the port (R20, R246). -/
  hosts : List HostAgent
  /-- Which agent acts in the next steps, soonest first. When the list is used up a command in flight
  completes, and otherwise the first host with a statement left acts (R217, R272). -/
  turns : List Turn
  /-- The model's own counter of unspecified values drawn so far (assumption 3). -/
  draws : Nat
  deriving DecidableEq, Repr

/-- Why a run stops with no result (R218, R242). Both are faults "of the host program, not ... a core
error", and safe: nothing is claimed of what a physical core would do. -/
inductive Fault where
  /-- Raised by a host write of CMD, KEY0..7, STATE0..3 or OPND while BUSY = 1 (R273). Safe. -/
  | hostWriteWhileBusy
  /-- Raised by a host access that is not 4 bytes wide or whose offset is not a multiple of 4 (R62). Safe. -/
  | badAccess
  deriving DecidableEq, Repr

/-- Why a step is given no meaning. -/
inductive Refusal where
  /-- Raised by an arm of `exec` whose instruction is not modelled. No arm raises it. Safe. -/
  | notModelled (mnemonic : String)
  /-- Raised by a host access outside the register window: "The platform fixes where `BASE` is and what lies
  outside the window" (R67), and the spec gives no behaviour there. Safe. -/
  | outsideWindow
  deriving DecidableEq, Repr

/-- The machine right after reset (R260): STATUS = 0 and the sequencer idle, as the spec says. The registers
the spec leaves unspecified hold 0 here, a value the model names (assumption 2, DESIGN CHOICE, unsafe). No
host program is present (assumption 1). -/
def State.reset : State where
  key := Vector.replicate 8 0
  block := Vector.replicate 4 0
  opnd := 0
  result := 0
  sched := Vector.replicate 60 0
  keyValid := false
  errcode := 0
  flight := none
  hosts := []
  turns := []
  draws := 0

end Sys2Proof.Machine
end

