-- ==== Sys2Proof/Machine/Bytes.lean ====
section
/-! DEFINITION. Bytes of words, and the two views of a block: a 4×4 byte matrix and a sequence of 16 bytes
(00_scope.md section 4, R5, R22, R24, R64). The byte order of the whole model is decided here. -/

namespace Sys2Proof.Machine

/-- `byte(v, j) = v[31-8j : 24-8j]`: byte 0 is the most significant (R5, R64). -/
def byteOf (v : Word) (j : Fin 4) : Byte := v.extractLsb' (24 - 8 * j.val) 8

/-- `word(b0, b1, b2, b3) = b0 ‖ b1 ‖ b2 ‖ b3` (00_scope.md section 4). -/
def wordOf (b0 b1 b2 b3 : Byte) : Word := b0 ++ b1 ++ b2 ++ b3

/-- `zext_32` of a byte (00_scope.md section 4, R4: no operation sign-extends a byte). -/
def zextByte (b : Byte) : Word := b.setWidth 32

/-- `s[r][c] = byte(x[STATEc], r)` (R24). -/
def byteAt (s : Block) (r c : Fin 4) : Byte := byteOf s[c] r

/-- The registers that hold a matrix: `x[STATEc] <- word(T[0][c], T[1][c], T[2][c], T[3][c])`
(42_round_transform.md, `writeState`). -/
def blockOf (t : Fin 4 → Fin 4 → Byte) : Block :=
  #v[wordOf (t 0 0) (t 1 0) (t 2 0) (t 3 0), wordOf (t 0 1) (t 1 1) (t 2 1) (t 3 1),
     wordOf (t 0 2) (t 1 2) (t 2 2) (t 3 2), wordOf (t 0 3) (t 1 3) (t 2 3) (t 3 3)]

/-- generateState: `s[r][c] = in[r + 4c]` (R24). -/
def generateState (input : Fin 16 → Byte) : Block :=
  blockOf fun r c => input ⟨r.val + 4 * c.val, by omega⟩

/-- generateOutput: `out[r + 4c] = s[r][c]` (R24). -/
def generateOutput (s : Block) (n : Fin 16) : Byte :=
  byteAt s ⟨n.val % 4, by omega⟩ ⟨n.val / 4, by omega⟩

/-- Key byte `4i + j` is `byte(x[KEYi], j)` (R22). -/
def keyByte (k : Key) (n : Fin 32) : Byte :=
  byteOf k[n.val / 4] ⟨n.val % 4, by omega⟩

end Sys2Proof.Machine
end

