-- ==== Sys2Proof/Machine/Ops.lean ====
section
/-! DEFINITION. The named operations on the state that the commands and the host accesses share: issue and
completion (R214, R215), the register writes of a command (R23, R26, R34), ending in an error (R232), and
reset (R260, R261). The core has no traps, so "taking an exception" is `State.raise`: an error code at
completion and nothing else (R239), and there is no return from one (R240). -/

namespace Sys2Proof.Machine

/-- The errors a command can end in (R231). -/
inductive CmdError where
  | invalidKeyLength
  | invalidBlockLength
  | noKeySchedule
  | invalidRound
  | illegalCommand
  deriving DecidableEq, Repr

/-- STATUS.ERRCODE of an error (R231). -/
def CmdError.code : CmdError → BitVec 4
  | .invalidKeyLength => 1
  | .invalidBlockLength => 2
  | .noKeySchedule => 3
  | .invalidRound => 4
  | .illegalCommand => 5

/-- STATUS.BUSY: 1 from a command's issue to its completion (R31). -/
def State.busy (s : State) : Bool := s.flight.isSome

/-- The values a command issued now would latch (R214). -/
def State.snapshot (s : State) : Snapshot where
  key := s.key
  block := s.block
  opnd := s.opnd
  sched := s.sched
  keyValid := s.keyValid

/-- The values the command's pseudocode reads: "The command's pseudocode reads only the snapshot" (R215).
Where no command is in flight, the values it would latch at issue (assumption 5). -/
def State.operands (s : State) : Snapshot :=
  match s.flight with
  | some f => f.snap
  | none => s.snapshot

/-- `issue(w)` with BUSY = 0: the command word and the operands are latched and BUSY becomes 1; "Nothing else
changes at issue" (R214). -/
def State.issue (w : Word) (s : State) : State :=
  { s with flight := some { cmd := w, snap := s.snapshot, work := s.block, stepsDone := 0 } }

/-- Completion without error: ERRCODE <- 0 and BUSY <- 0 (R215, R33). -/
def State.succeed (s : State) : State := { s with errcode := 0, flight := none }

/-- `raise <Error>(code)`: completion with an error. ERRCODE <- code, BUSY <- 0, and "no other state changes"
(R215, R232). -/
def State.raise (e : CmdError) (s : State) : State := { s with errcode := e.code, flight := none }

/-- `x[RESULT] <- v` (R26). -/
def State.writeResult (v : Word) (s : State) : State := { s with result := v }

/-- A byte result: "writes it to bits [7:0] and writes 0 to bits [31:8]" (R26, D35). -/
def State.writeResultByte (b : Byte) (s : State) : State := s.writeResult (zextByte b)

/-- `writeState(T)`: all four registers together (42_round_transform.md, R23). -/
def State.writeBlock (t : Block) (s : State) : State := { s with block := t }

/-- The writes of a KEY_EXPAND that completes without error: "all 60 words W[0..59] together", and
KEY_VALID <- 1 (R34, R32). -/
def State.writeSchedule (w : Schedule) (s : State) : State := { s with sched := w, keyValid := true }

/-- One unspecified value, drawn fresh (93_implementation_defined.md, `any value`; assumption 3). -/
def State.drawn (s : State) : Word := Config.freeWord s.draws

/-- The state after one draw: only the model's own counter moves. -/
def State.afterDraw (s : State) : State := { s with draws := s.draws + 1 }

/-- How many unspecified values one reset draws: 8 + 4 + 1 + 1 + 60 registers. -/
def resetDraws : Nat := 74

/-- Reset (R260, R261): the command in flight is abandoned, STATUS is 0, and every data register holds an
unspecified value, "not necessarily the same for two registers, and not necessarily the same across
resets". The hosts and the schedule of turns are outside the core and stay (assumption 4). -/
def State.resetCore (s : State) : State where
  key := Vector.ofFn fun i => Config.freeWord (s.draws + i.val)
  block := Vector.ofFn fun i => Config.freeWord (s.draws + 8 + i.val)
  opnd := Config.freeWord (s.draws + 12)
  result := Config.freeWord (s.draws + 13)
  sched := Vector.ofFn fun i => Config.freeWord (s.draws + 14 + i.val)
  keyValid := false
  errcode := 0
  flight := none
  hosts := s.hosts
  turns := s.turns
  draws := s.draws + resetDraws

end Sys2Proof.Machine
end

