-- ==== Sys2Proof/Machine/Flags.lean ====
section
/-! DEFINITION. The STATUS word, computed from the pieces of state it shows (R28). The core has no condition
codes and no other flags (R35). -/

namespace Sys2Proof.Machine

/-- STATUS.ERR "always equals (STATUS.ERRCODE != 0)" (R33). -/
def State.err (s : State) : Bool := s.errcode != 0

/-- The STATUS word: BUSY [0], KEY_VALID [1], ERR [2], reserved 0 [3], ERRCODE [7:4], reserved 0 [31:8]
(R28). -/
def State.statusWord (s : State) : Word :=
  (0 : BitVec 24) ++ s.errcode ++ (0 : BitVec 1) ++ BitVec.ofBool s.err ++ BitVec.ofBool s.keyValid
    ++ BitVec.ofBool s.busy

end Sys2Proof.Machine
end

