-- ==== Sys2Proof/Machine/Operands.lean ====
section
/-! DEFINITION. Where a command's data operands come from: OPND for the scalar commands, the schedule store
for a round key (R25, R29, R82). "No command word carries a register number." -/

namespace Sys2Proof.Machine

/-- OPND[7:0]: operand `a` of GF_MUL, `n` of RCON, `b` of SBOX and INV_SBOX (R102, R125, R150, R151). -/
def opndLow (v : Word) : Byte := v.extractLsb' 0 8

/-- OPND[15:8]: operand `b` of GF_MUL (R102). -/
def opndHigh (v : Word) : Byte := v.extractLsb' 8 8

/-- The four bytes of OPND that GF_ADD adds: [7:0], [15:8], [23:16] and [31:24] (R104). -/
def opndBytes (v : Word) : List Byte :=
  [v.extractLsb' 0 8, v.extractLsb' 8 8, v.extractLsb' 16 8, v.extractLsb' 24 8]

/-- `W[i]`. Every rule reads it at an index of 0..59. -/
def schedWord (w : Schedule) (i : Nat) : Word := w[i]?.getD 0

/-- Round key n: "Column c of round key n is therefore word 4n+c" (R29). -/
def roundKey (w : Schedule) (n : Nat) : Block :=
  #v[schedWord w (4 * n), schedWord w (4 * n + 1), schedWord w (4 * n + 2), schedWord w (4 * n + 3)]

end Sys2Proof.Machine
end

