-- ==== Sys2Proof/Machine/HostAccess.lean ====
section
/-! DEFINITION. The register window and the host's reads and writes of it (10_state.md section 2,
20_memory.md, 44_host_access.md), and the command NOP (R216). -/

namespace Sys2Proof.Machine

/-- NOP: no register writes; completion sets ERRCODE <- 0 (R216). -/
def execNop (s : State) : Host.Outcome State Fault Refusal := .next s.succeed

/-- The host-visible registers (R21). -/
inductive Reg where
  | cmd
  | status
  | opnd
  | result
  | state (c : Fin 4)
  | key (i : Fin 8)
  | rkw (i : Fin 60)
  deriving DecidableEq, Repr

/-- The byte offset of a register in the window (R21). -/
def Reg.off : Reg → Nat
  | .cmd => 0x000
  | .status => 0x004
  | .opnd => 0x008
  | .result => 0x00C
  | .state c => 0x010 + 4 * c.val
  | .key i => 0x020 + 4 * i.val
  | .rkw i => 0x100 + 4 * i.val

/-- The register at an offset: none at the reserved offsets 0x040 to 0x0FC and 0x1F0 to 0x1FC (R21, R63). -/
def regAt (off : Nat) : Option Reg :=
  if off % 4 ≠ 0 then none
  else if off = 0x000 then some .cmd
  else if off = 0x004 then some .status
  else if off = 0x008 then some .opnd
  else if off = 0x00C then some .result
  else if h : 0x010 ≤ off ∧ off < 0x020 then some (.state ⟨(off - 0x010) / 4, by omega⟩)
  else if h : 0x020 ≤ off ∧ off < 0x040 then some (.key ⟨(off - 0x020) / 4, by omega⟩)
  else if h : 0x100 ≤ off ∧ off < 0x1F0 then some (.rkw ⟨(off - 0x100) / 4, by omega⟩)
  else none

/-- The offset a byte address names, for a window at `base` (R60); none outside the window. -/
def windowOffset (base addr : Nat) : Option Nat :=
  if base ≤ addr ∧ addr < base + Config.windowSize then some (addr - base) else none

/-- The offset a host's place names. -/
def Place.offset : Place → Option Nat
  | .off o => if o < Config.windowSize then some o else none
  | .addr a => windowOffset Config.base a

/-- Why an access that reaches the window is no access of the interface: not 32 bits wide, or "at an offset
with off[1:0] != 0" (R62). -/
def accessMalformed (off width : Nat) : Bool := width != 4 || off % 4 != 0

/-- Whether a host read of the register returns "any 32-bit value": RESULT, STATE0..3 and RKW0..59 while
BUSY = 1 (R274), and RKW0..59 while KEY_VALID = 0 (R30, R210). -/
def State.unspecified (r : Reg) (s : State) : Bool :=
  match r with
  | .cmd => false
  | .status => false
  | .opnd => false
  | .key _ => false
  | .result => s.busy
  | .state _ => s.busy
  | .rkw _ => s.busy || !s.keyValid

/-- `x[R]`, and 0 for the write-only CMD (R27, R210). -/
def State.regValue (r : Reg) (s : State) : Word :=
  match r with
  | .cmd => 0
  | .status => s.statusWord
  | .opnd => s.opnd
  | .key i => s.key[i]
  | .result => s.result
  | .state c => s.block[c]
  | .rkw i => s.sched[i]

/-- A register as a host reads it: its value, or a freshly drawn one where that is unspecified (R210). -/
def State.readReg (r : Reg) (s : State) : Word × State :=
  if s.unspecified r then (s.drawn, s.afterDraw) else (s.regValue r, s)

/-- `MemRead(off, 4)` (R210): reserved offsets read 0 (R63), and "A read changes no state" beyond the model's
own counter of draws. -/
def State.memRead (off width : Nat) (s : State) : Host.Outcome (Word × State) Fault Refusal :=
  if accessMalformed off width then .fault .badAccess
  else match regAt off with
    | some r => .next (s.readReg r)
    | none => .next (0, s)

/-- A host write that the BUSY rule guards: "if STATUS.BUSY == 1: fault HostWriteWhileBusy" (R211, R273). -/
def State.unlessBusy (s t : State) : Host.Outcome State Fault Refusal :=
  if s.busy then .fault .hostWriteWhileBusy else .next t

/-- A host write of a register (R211): CMD issues a command (R214), KEY, STATE and OPND store the value,
and the read-only registers ignore it (R42). -/
def State.writeReg (r : Reg) (v : Word) (s : State) : Host.Outcome State Fault Refusal :=
  match r with
  | .cmd => s.unlessBusy (s.issue v)
  | .key i => s.unlessBusy { s with key := s.key.set i.val v }
  | .state c => s.unlessBusy { s with block := s.block.set c.val v }
  | .opnd => s.unlessBusy { s with opnd := v }
  | .status => .next s
  | .result => .next s
  | .rkw _ => .next s

/-- `MemWrite(off, 4, v)` (R211): writes at reserved offsets are ignored (R63). -/
def State.memWrite (off width : Nat) (v : Word) (s : State) : Host.Outcome State Fault Refusal :=
  if accessMalformed off width then .fault .badAccess
  else match regAt off with
    | some r => s.writeReg r v
    | none => .next s

/-- A register's part of a run's observable result, "read as rule R210 says" (R218). An unspecified one is a
free value of its own, one for each register at each count of draws, with no law that links it to another
register's or to a host's reads (93_implementation_defined.md, U8, U11; assumption 3). -/
def State.observe (s : State) (r : Reg) : Word :=
  if s.unspecified r then Config.freeObserved s.draws r.off else s.regValue r

end Sys2Proof.Machine
end

