-- ==== Sys2Proof/Machine/HostProgram.lean ====
section
/-! DEFINITION. The host agents: their variables, the meaning of a host-program statement (R88), and the
pseudo-instructions of R88 as the statements they stand for. -/

namespace Sys2Proof.Machine

/-- A host variable's value; an unlisted variable reads 0 (assumption 6). -/
def varsGet : HostVars → Nat → Word
  | [], _ => 0
  | (k, v) :: rest, t => if t = k then v else varsGet rest t

/-- `t <- v`, keeping the keys rising and listing no 0. -/
def varsSet : HostVars → Nat → Word → HostVars
  | [], t, v => if v = 0 then [] else [(t, v)]
  | (k, w) :: rest, t, v =>
    if t < k then (if v = 0 then (k, w) :: rest else (t, v) :: (k, w) :: rest)
    else if t = k then (if v = 0 then rest else (t, v) :: rest)
    else (k, w) :: varsSet rest t v

/-- The canonical form of `HostVars`: keys strictly rising, no entry equal to what an unlisted one reads. -/
def varsWf (vs : HostVars) : Bool :=
  decide ((vs.map Prod.fst).Pairwise (· < ·)) && vs.all fun e => e.2 != 0

/-- A host-side value. -/
def HostExpr.eval (vs : HostVars) : HostExpr → Word
  | .lit v => v
  | .var t => varsGet vs t
  | .add a b => a.eval vs + b.eval vs
  | .sub a b => a.eval vs - b.eval vs
  | .or a b => a.eval vs ||| b.eval vs
  | .xor a b => a.eval vs ^^^ b.eval vs
  | .shl a n => a.eval vs <<< n

/-- A host-side condition. -/
def HostCond.holds (vs : HostVars) : HostCond → Bool
  | .eq a b => a.eval vs == b.eval vs
  | .ne a b => a.eval vs != b.eval vs
  | .lt a b => (a.eval vs).ult (b.eval vs)
  | .le a b => (a.eval vs).ule (b.eval vs)
  | .bit a i => (a.eval vs).getLsbD i

/-- Puts host k in the state. -/
def State.setHost (k : Nat) (h : HostAgent) (s : State) : State := { s with hosts := s.hosts.set k h }

/-- The host after a statement that only moves on. -/
def HostAgent.advance (h : HostAgent) : HostAgent := { h with pc := h.pc + 1 }

/-- The host after `t <- v`. -/
def HostAgent.assign (t : Nat) (v : Word) (h : HostAgent) : HostAgent :=
  { h with pc := h.pc + 1, vars := varsSet h.vars t v }

/-- The host after a jump. -/
def HostAgent.jump (target : Nat) (h : HostAgent) : HostAgent := { h with pc := target }

/-- `WR NAME, v`: `MemWrite(off(NAME), 4, v)` (R88). -/
def State.hostWrite (k : Nat) (h : HostAgent) (p : Place) (width : Nat) (v : HostExpr) (s : State) :
    Host.Outcome State Fault Refusal :=
  match p.offset with
  | none => .refused .outsideWindow
  | some off => (s.setHost k h.advance).memWrite off width (v.eval h.vars)

/-- `RD NAME -> t`: `t <- MemRead(off(NAME), 4)` (R88). -/
def State.hostRead (k : Nat) (h : HostAgent) (p : Place) (width t : Nat) (s : State) :
    Host.Outcome State Fault Refusal :=
  match p.offset with
  | none => .refused .outsideWindow
  | some off =>
    match s.memRead off width with
    | .next (v, s') => .next (s'.setHost k (h.assign t v))
    | .fault r => .fault r
    | .refused r => .refused r

/-- Host k, whose state is h, performs one statement (R88). Control flow "touches no core state". -/
def State.hostStmt (k : Nat) (h : HostAgent) (st : HostStmt) (s : State) :
    Host.Outcome State Fault Refusal :=
  match st with
  | .wr p width v => s.hostWrite k h p width v
  | .rd p width t => s.hostRead k h p width t
  | .set t v => .next (s.setHost k (h.assign t (v.eval h.vars)))
  | .goto target => .next (s.setHost k (h.jump target))
  | .ifGoto c target => .next (s.setHost k (if c.holds h.vars then h.jump target else h.advance))

/-- A host that has performed its last statement is finished (R218). -/
def HostAgent.finished (h : HostAgent) : Bool := decide (h.prog.length ≤ h.pc)

/-- Host k's turn: its next statement, or nothing if it is finished or there is no such host. The host's
accesses take effect one at a time (R69). -/
def State.hostTurn (k : Nat) (s : State) : Host.Outcome State Fault Refusal :=
  match s.hosts[k]? with
  | none => .next s
  | some h =>
    match h.prog[h.pc]? with
    | none => .next s
    | some st => s.hostStmt k h st

/-- `WR NAME, v` (R88). -/
def wrReg (r : Reg) (v : Word) : HostStmt := .wr (.off r.off) 4 (.lit v)

/-- `RD NAME -> t` (R88). -/
def rdReg (r : Reg) (t : Nat) : HostStmt := .rd (.off r.off) 4 t

/-- `CMD MNEM ...`: "pseudo-instruction for `WR CMD, enc(MNEM, rnd, len)`" (R88). -/
def cmdStmt (i : Instr) : HostStmt := wrReg .cmd (encode i)

/-- `WAIT` as the statements at index `at` and after: `L: RD STATUS -> t; if t[0] == 1 goto L` (R88). -/
def waitStmts (at_ t : Nat) : List HostStmt := [rdReg .status t, .ifGoto (.bit (.var t) 0) at_]

/-- `ISSUE MNEM ...` at index `at`: `CMD MNEM ...` followed by `WAIT` (R88). -/
def issueStmts (at_ t : Nat) (i : Instr) : List HostStmt := cmdStmt i :: waitStmts (at_ + 1) t

/-- `WRKEY k0,...,k7` (R88). -/
def wrKeyStmts (k : Key) : List HostStmt := (List.finRange 8).map fun i => wrReg (.key i) k[i]

/-- `WRBLK s0,s1,s2,s3` (R88). -/
def wrBlkStmts (b : Block) : List HostStmt := (List.finRange 4).map fun c => wrReg (.state c) b[c]

/-- `RDBLK -> t0,t1,t2,t3`, into the host variables from `t` on (R88). -/
def rdBlkStmts (t : Nat) : List HostStmt := (List.finRange 4).map fun c => rdReg (.state c) (t + c.val)

end Sys2Proof.Machine
end

