-- ==== Sys2Proof/Machine/Field.lean ====
section
/-! DEFINITION. GF(2^8) arithmetic modulo 0x11B (40_field_arithmetic.md, R100 to R106). -/

namespace Sys2Proof.Machine

/-- One doubling step: `(a << 1)[7:0] ^ (a[7] == 1 ? 0x1B : 0x00)` (R106). -/
def xtime (a : Byte) : Byte := (a <<< 1) ^^^ (if a.getLsbD 7 then 0x1B else 0x00)

/-- The body of R101's loop, `n` times: "if the current low bit of b is 1, XOR a into the running product",
then double a and halve b. -/
def gmulLoop : Nat → Byte → Byte → Byte → Byte
  | 0, _, _, p => p
  | n + 1, a, b, p => gmulLoop n (xtime a) (b >>> 1) (if b.getLsbD 0 then p ^^^ a else p)

/-- `gmul(a, b)`, "the Russian peasant loop of the source, over exactly 8 iterations" (R101). -/
def gmul (a b : Byte) : Byte := gmulLoop 8 a b 0x00

/-- `gadd(b1, ..., bn)`, the XOR of its operands; "The empty sum is 0x00" (R103). -/
def gadd (bs : List Byte) : Byte := bs.foldl (fun p b => p ^^^ b) 0x00

/-- The multiplicative inverse, with `inv(0) = 0`, as the power x^254 (R38). -/
def gfInv (x : Byte) : Byte :=
  let x2 := gmul x x
  let x4 := gmul x2 x2
  let x8 := gmul x4 x4
  let x16 := gmul x8 x8
  let x32 := gmul x16 x16
  let x64 := gmul x32 x32
  let x128 := gmul x64 x64
  gmul x2 (gmul x4 (gmul x8 (gmul x16 (gmul x32 (gmul x64 x128)))))

end Sys2Proof.Machine
end

