-- ==== Sys2Proof/Machine/Tables.lean ====
section
/-! DEFINITION. The constant tables of the core: SBOX, INV_SBOX (R36, R37) and the round-constant ROM (R122).
The two S-box tables stand as 10_state.md prints them, one row a number: the row's 16 entries, column 0 in
the most significant byte. The spec takes them from general knowledge (D32, assumption 9). -/

namespace Sys2Proof.Machine

/-- The table of R36, rows 0 to 7. -/
def sboxRowsLow : List (BitVec 128) :=
  [ 0x637c777bf26b6fc53001672bfed7ab76,
    0xca82c97dfa5947f0add4a2af9ca472c0,
    0xb7fd9326363ff7cc34a5e5f171d83115,
    0x04c723c31896059a071280e2eb27b275,
    0x09832c1a1b6e5aa0523bd6b329e32f84,
    0x53d100ed20fcb15b6acbbe394a4c58cf,
    0xd0efaafb434d338545f9027f503c9fa8,
    0x51a3408f929d38f5bcb6da2110fff3d2 ]

/-- The table of R36, rows 8 to f. -/
def sboxRowsHigh : List (BitVec 128) :=
  [ 0xcd0c13ec5f974417c4a77e3d645d1973,
    0x60814fdc222a908846eeb814de5e0bdb,
    0xe0323a0a4906245cc2d3ac629195e479,
    0xe7c8376d8dd54ea96c56f4ea657aae08,
    0xba78252e1ca6b4c6e8dd741f4bbd8b8a,
    0x703eb5664803f60e613557b986c11d9e,
    0xe1f8981169d98e949b1e87e9ce5528df,
    0x8ca1890dbfe6426841992d0fb054bb16 ]

/-- The table of R37, rows 0 to 7. -/
def invSboxRowsLow : List (BitVec 128) :=
  [ 0x52096ad53036a538bf40a39e81f3d7fb,
    0x7ce339829b2fff87348e4344c4dee9cb,
    0x547b9432a6c2233dee4c950b42fac34e,
    0x082ea16628d924b2765ba2496d8bd125,
    0x72f8f66486689816d4a45ccc5d65b692,
    0x6c704850fdedb9da5e154657a78d9d84,
    0x90d8ab008cbcd30af7e45805b8b34506,
    0xd02c1e8fca3f0f02c1afbd0301138a6b ]

/-- The table of R37, rows 8 to f. -/
def invSboxRowsHigh : List (BitVec 128) :=
  [ 0x3a9111414f67dcea97f2cfcef0b4e673,
    0x96ac7422e7ad3585e2f937e81c75df6e,
    0x47f11a711d29c5896fb7620eaa18be1b,
    0xfc563e4bc6d279209adbc0fe78cd5af4,
    0x1fdda8338807c731b11210592780ec5f,
    0x60517fa919b54a0d2de57a9f93c99cef,
    0xa0e03b4dae2af5b0c8ebbb3c83539961,
    0x172b047eba77d626e169146355210c7d ]

/-- The entry at row `b[7:4]`, column `b[3:0]`: "high nibble selects row, low nibble selects column" (R36). -/
def tableEntry (rows : List (BitVec 128)) (b : Byte) : Byte :=
  (rows.getD (b.toNat / 16) 0).extractLsb' (120 - 8 * (b.toNat % 16)) 8

/-- `SBOX[b]` (R36). -/
def sboxRom (b : Byte) : Byte := tableEntry (sboxRowsLow ++ sboxRowsHigh) b

/-- `INV_SBOX[b]` (R37). -/
def invSboxRom (b : Byte) : Byte := tableEntry (invSboxRowsLow ++ invSboxRowsHigh) b

/-- `repeat n times: c <- gmul(c, 0x02)` (R122). -/
def rconLoop : Nat → Byte → Byte
  | 0, c => c
  | n + 1, c => rconLoop n (gmul c 0x02)

/-- `RCON_ROM[n] = Rcon(n)`: 0 for n = 0, otherwise 2^(n-1) in GF(2^8) (R122). -/
def rconRom (n : Byte) : Byte := if n = 0 then 0x00 else rconLoop (n.toNat - 1) 0x01

/-- `rotl8(b, k) = ((b << k) | (b >> (8-k)))[7:0]`, for R38's formula. The formula defines nothing here ("the
tables govern", R38); the statement SboxTablesAndFormula says that it gives them. -/
def rotl8 (b : Byte) (k : Nat) : Byte := (b <<< k) ||| (b >>> (8 - k))

end Sys2Proof.Machine
end

