-- ==== Sys2Proof/Machine/RoundTransform.lean ====
section
/-! DEFINITION. The round transforms as functions of a State, and the commands that apply them to the State
in STATE0..3, with the byte lookups SBOX and INV_SBOX (42_round_transform.md). -/

namespace Sys2Proof.Machine

/-- `SubBytes(S, inverse)[r][c] = (inverse ? INV_SBOX : SBOX)[S[r][c]]` (R152). -/
def subBytes (s : Block) (inverse : Bool) : Block :=
  blockOf fun r c => if inverse then invSboxRom (byteAt s r c) else sboxRom (byteAt s r c)

/-- Row r goes left by r places, or right by r places when `inverse` (R155). Columns count modulo 4, as
`Fin 4` does. -/
def shiftRows (s : Block) (inverse : Bool) : Block :=
  blockOf fun r c => if inverse then byteAt s r (c - r) else byteAt s r (c + r)

/-- `M_fwd`, row by row (R158). -/
def mixForward : Vector (Vector Byte 4) 4 :=
  #v[#v[0x02, 0x03, 0x01, 0x01],
     #v[0x01, 0x02, 0x03, 0x01],
     #v[0x01, 0x01, 0x02, 0x03],
     #v[0x03, 0x01, 0x01, 0x02]]

/-- `M_inv`, row by row (R158). -/
def mixInverse : Vector (Vector Byte 4) 4 :=
  #v[#v[0x0e, 0x0b, 0x0d, 0x09],
     #v[0x09, 0x0e, 0x0b, 0x0d],
     #v[0x0d, 0x09, 0x0e, 0x0b],
     #v[0x0b, 0x0d, 0x09, 0x0e]]

/-- `M[r][j]` (R158, R159). -/
def mixCoef (inverse : Bool) (r j : Fin 4) : Byte := (if inverse then mixInverse else mixForward)[r][j]

/-- `gadd over j in 0..3 of gmul(M[r][j], S[j][c])` (R159). -/
def mixColumns (s : Block) (inverse : Bool) : Block :=
  blockOf fun r c =>
    gadd [gmul (mixCoef inverse r 0) (byteAt s 0 c), gmul (mixCoef inverse r 1) (byteAt s 1 c),
      gmul (mixCoef inverse r 2) (byteAt s 2 c), gmul (mixCoef inverse r 3) (byteAt s 3 c)]

/-- `AddRoundKey(S, K)[r][c] = S[r][c] ^ K[r][c]` (R162). -/
def addRoundKey (s k : Block) : Block := blockOf fun r c => byteAt s r c ^^^ byteAt k r c

/-- SBOX: `x[RESULT] <- zext_32(SBOX[b])`, b = OPND[7:0] (R150). -/
def execSbox (s : State) : Host.Outcome State Fault Refusal :=
  .next (s.writeResultByte (sboxRom (opndLow s.operands.opnd))).succeed

/-- INV_SBOX: `x[RESULT] <- zext_32(INV_SBOX[b])`, b = OPND[7:0] (R151). -/
def execInvSbox (s : State) : Host.Outcome State Fault Refusal :=
  .next (s.writeResultByte (invSboxRom (opndLow s.operands.opnd))).succeed

/-- SUB_BYTES: `writeState(SubBytes(S, false))` (R153). -/
def execSubBytes (s : State) : Host.Outcome State Fault Refusal :=
  .next (s.writeBlock (subBytes s.operands.block false)).succeed

/-- INV_SUB_BYTES: `writeState(SubBytes(S, true))` (R154). -/
def execInvSubBytes (s : State) : Host.Outcome State Fault Refusal :=
  .next (s.writeBlock (subBytes s.operands.block true)).succeed

/-- SHIFT_ROWS: `writeState(ShiftRows(S, false))` (R156). -/
def execShiftRows (s : State) : Host.Outcome State Fault Refusal :=
  .next (s.writeBlock (shiftRows s.operands.block false)).succeed

/-- INV_SHIFT_ROWS: `writeState(ShiftRows(S, true))` (R157). -/
def execInvShiftRows (s : State) : Host.Outcome State Fault Refusal :=
  .next (s.writeBlock (shiftRows s.operands.block true)).succeed

/-- MIX_COLUMNS: `writeState(MixColumns(S, false))` (R160). -/
def execMixColumns (s : State) : Host.Outcome State Fault Refusal :=
  .next (s.writeBlock (mixColumns s.operands.block false)).succeed

/-- INV_MIX_COLUMNS: `writeState(MixColumns(S, true))` (R161). -/
def execInvMixColumns (s : State) : Host.Outcome State Fault Refusal :=
  .next (s.writeBlock (mixColumns s.operands.block true)).succeed

/-- ADD_ROUND_KEY: InvalidRound for n > 14, then NoKeySchedule, then `writeState(AddRoundKey(S, RK[n]))`
(R163, R233). -/
def execAddRoundKey (rnd : Nat) (s : State) : Host.Outcome State Fault Refusal :=
  if 14 < rnd then .next (s.raise .invalidRound)
  else if s.operands.keyValid = false then .next (s.raise .noKeySchedule)
  else .next (s.writeBlock (addRoundKey s.operands.block (roundKey s.operands.sched rnd))).succeed

/-- ADD_ROUND_KEY_IMC: the same checks, then `writeState(AddRoundKey(S, MixColumns(RK[n], true)))`
(R164, R233). -/
def execAddRoundKeyImc (rnd : Nat) (s : State) : Host.Outcome State Fault Refusal :=
  if 14 < rnd then .next (s.raise .invalidRound)
  else if s.operands.keyValid = false then .next (s.raise .noKeySchedule)
  else
    .next (s.writeBlock
      (addRoundKey s.operands.block (mixColumns (roundKey s.operands.sched rnd) true))).succeed

end Sys2Proof.Machine
end

