-- ==== Sys2Proof/Machine/CipherEngine.lean ====
section
/-! DEFINITION. The encryption and decryption datapath with its round control, and the commands ENCRYPT and
DECRYPT (43_cipher_engine.md). The same rounds are given twice: whole, as the commands use them (R190,
R192), and one AddRoundKey step at a time, as the sequencer's hidden state passes through them (R40, R196);
Laws/Engine.lean shows that they agree. -/

namespace Sys2Proof.Machine

/-- A middle round of Cipher (R190, step 3). -/
def encMiddle (w : Schedule) (s : Block) (round : Nat) : Block :=
  addRoundKey (mixColumns (shiftRows (subBytes s false) false) false) (roundKey w round)

/-- The final round of Cipher, "no MixColumns" (R190, step 4). -/
def encFinal (w : Schedule) (s : Block) : Block :=
  addRoundKey (shiftRows (subBytes s false) false) (roundKey w 14)

/-- The rounds 1 .. 13, ascending (R190: "For round = 1 .. Nr-1"). -/
def middleRounds : List Nat := [1, 2, 3, 4, 5, 6, 7, 8, 9, 10, 11, 12, 13]

/-- `Cipher(S)` over the round keys of the schedule store (R190). -/
def cipher (w : Schedule) (s : Block) : Block :=
  encFinal w (middleRounds.foldl (encMiddle w) (addRoundKey s (roundKey w 0)))

/-- A middle round of InvCipher: the round key, not the state, passes through InverseMixColumns after the
XOR (R192, step 3). -/
def decMiddle (w : Schedule) (s : Block) (round : Nat) : Block :=
  addRoundKey (mixColumns (shiftRows (subBytes s true) true) true) (mixColumns (roundKey w round) true)

/-- The final round of InvCipher (R192, step 4). -/
def decFinal (w : Schedule) (s : Block) : Block :=
  addRoundKey (shiftRows (subBytes s true) true) (roundKey w 0)

/-- `InvCipher(S)`, the equivalent inverse cipher, rounds 13 .. 1 descending (R192). -/
def invCipher (w : Schedule) (s : Block) : Block :=
  decFinal w (middleRounds.reverse.foldl (decMiddle w) (addRoundKey s (roundKey w 14)))

/-- ENCRYPT: InvalidBlockLength unless LEN = 16, then NoKeySchedule, then `writeState(Cipher(S))`
(R191, R233). -/
def execEncrypt (len : Nat) (s : State) : Host.Outcome State Fault Refusal :=
  if len ≠ 16 then .next (s.raise .invalidBlockLength)
  else if s.operands.keyValid = false then .next (s.raise .noKeySchedule)
  else .next (s.writeBlock (cipher s.operands.sched s.operands.block)).succeed

/-- DECRYPT: the same checks, then `writeState(InvCipher(S))` (R193, R233). -/
def execDecrypt (len : Nat) (s : State) : Host.Outcome State Fault Refusal :=
  if len ≠ 16 then .next (s.raise .invalidBlockLength)
  else if s.operands.keyValid = false then .next (s.raise .noKeySchedule)
  else .next (s.writeBlock (invCipher s.operands.sched s.operands.block)).succeed

/-- What the datapath does to the working copy between its k-th and its (k+1)-th AddRoundKey step, while
encrypting: step k belongs to round k (R190, R196). -/
def encStep (w : Schedule) (k : Nat) (s : Block) : Block :=
  if k = 0 then addRoundKey s (roundKey w 0)
  else if k < 14 then encMiddle w s k
  else encFinal w s

/-- The same while decrypting: step k belongs to round 14 - k (R192, R196). -/
def decStep (w : Schedule) (k : Nat) (s : Block) : Block :=
  if k = 0 then addRoundKey s (roundKey w 14)
  else if k < 14 then decMiddle w s (14 - k)
  else decFinal w s

/-- The step the datapath takes next for the command in flight, if it has one: ENCRYPT and DECRYPT "each
apply exactly Nr = 14 rounds and 15 AddRoundKey steps" (R196) when none of their checks fails; no other
command has rounds (R40). -/
def roundStep (i : Instr) (snap : Snapshot) (k : Nat) (work : Block) : Option Block :=
  match i with
  | .encrypt len =>
    if len = 16 ∧ snap.keyValid = true ∧ k < 15 then some (encStep snap.sched k work) else none
  | .decrypt len =>
    if len = 16 ∧ snap.keyValid = true ∧ k < 15 then some (decStep snap.sched k work) else none
  | .nop | .gfMul | .gfAdd | .rotWord | .subWord | .rcon | .keyExpand _ | .sbox | .invSbox
  | .subBytes | .invSubBytes | .shiftRows | .invShiftRows | .mixColumns | .invMixColumns
  | .addRoundKey _ | .addRoundKeyImc _ => none

end Sys2Proof.Machine
end

