-- ==== Sys2Proof/Machine/FieldArith.lean ====
section
/-! DEFINITION. The field arithmetic commands GF_MUL and GF_ADD (40_field_arithmetic.md section 2). -/

namespace Sys2Proof.Machine

/-- GF_MUL: `x[RESULT] <- zext_32(gmul(a, b))`, a = OPND[7:0], b = OPND[15:8] (R102). -/
def execGfMul (s : State) : Host.Outcome State Fault Refusal :=
  let v := s.operands.opnd
  .next (s.writeResultByte (gmul (opndLow v) (opndHigh v))).succeed

/-- GF_ADD: `x[RESULT] <- zext_32(v[7:0] ^ v[15:8] ^ v[23:16] ^ v[31:24])` (R104). -/
def execGfAdd (s : State) : Host.Outcome State Fault Refusal :=
  .next (s.writeResultByte (gadd (opndBytes s.operands.opnd))).succeed

end Sys2Proof.Machine
end

