-- ==== Sys2Proof/Machine/KeySchedule.lean ====
section
/-! DEFINITION. The key schedule: the word functions, the 60-word expansion, and the commands ROT_WORD,
SUB_WORD, RCON and KEY_EXPAND (41_key_schedule.md). -/

namespace Sys2Proof.Machine

/-- `RotWord(v) = v[23:0] ‖ v[31:24]` (R120). -/
def rotWord (v : Word) : Word := v.extractLsb' 0 24 ++ v.extractLsb' 24 8

/-- `SubWord`: every byte through the S-box (R121). -/
def subWord (v : Word) : Word :=
  wordOf (sboxRom (byteOf v 0)) (sboxRom (byteOf v 1)) (sboxRom (byteOf v 2)) (sboxRom (byteOf v 3))

/-- What R126 XORs into w[i-8] to make w[i], from w[i-1]. -/
def expandTemp (i : Nat) (prev : Word) : Word :=
  if i % 8 = 0 then
    subWord (rotWord prev) ^^^ (zextByte (rconRom (BitVec.ofNat 8 (i / 8))) <<< 24)
  else if i % 8 = 4 then subWord prev
  else prev

/-- The words w[0..7+n] of R126's loop, the newest first: the list's head is w[i-1] and its entry 7 is
w[i-8] when w[i] is made. -/
def expandWords (k : Key) : Nat → List Word
  | 0 => [k[7], k[6], k[5], k[4], k[3], k[2], k[1], k[0]]
  | n + 1 =>
    let ws := expandWords k n
    (ws.getD 7 0 ^^^ expandTemp (n + 8) (ws.getD 0 0)) :: ws

/-- `KeyExpansion(k[0..7])`, 60 words (R126). -/
def keyExpansion (k : Key) : Schedule :=
  let ws := expandWords k 52
  Vector.ofFn fun i => ws.getD (59 - i.val) 0

/-- ROT_WORD: `x[RESULT] <- v[23:0] ‖ v[31:24]` (R123). -/
def execRotWord (s : State) : Host.Outcome State Fault Refusal :=
  .next (s.writeResult (rotWord s.operands.opnd)).succeed

/-- SUB_WORD: `x[RESULT] <- SubWord(x[OPND])` (R124). -/
def execSubWord (s : State) : Host.Outcome State Fault Refusal :=
  .next (s.writeResult (subWord s.operands.opnd)).succeed

/-- RCON: `x[RESULT] <- zext_32(RCON_ROM[n])`, n = OPND[7:0] (R125). -/
def execRcon (s : State) : Host.Outcome State Fault Refusal :=
  .next (s.writeResultByte (rconRom (opndLow s.operands.opnd))).succeed

/-- KEY_EXPAND: InvalidKeyLength unless LEN = 32, then the whole schedule and KEY_VALID (R127, R234). -/
def execKeyExpand (len : Nat) (s : State) : Host.Outcome State Fault Refusal :=
  if len ≠ 32 then .next (s.raise .invalidKeyLength)
  else .next (s.writeSchedule (keyExpansion s.operands.key)).succeed

end Sys2Proof.Machine
end

