-- ==== Sys2Proof/Machine/Dispatch.lean ====
section
/-! DEFINITION. One arm for each command: what its completion does (R215, "the pseudocode of row's rule"). -/

namespace Sys2Proof.Machine

def exec (i : Instr) (s : State) : Host.Outcome State Fault Refusal :=
  match i with
  | .nop => Sys2Proof.Machine.execNop s
  | .gfMul => Sys2Proof.Machine.execGfMul s
  | .gfAdd => Sys2Proof.Machine.execGfAdd s
  | .rotWord => Sys2Proof.Machine.execRotWord s
  | .subWord => Sys2Proof.Machine.execSubWord s
  | .rcon => Sys2Proof.Machine.execRcon s
  | .keyExpand len => Sys2Proof.Machine.execKeyExpand len s
  | .sbox => Sys2Proof.Machine.execSbox s
  | .invSbox => Sys2Proof.Machine.execInvSbox s
  | .subBytes => Sys2Proof.Machine.execSubBytes s
  | .invSubBytes => Sys2Proof.Machine.execInvSubBytes s
  | .shiftRows => Sys2Proof.Machine.execShiftRows s
  | .invShiftRows => Sys2Proof.Machine.execInvShiftRows s
  | .mixColumns => Sys2Proof.Machine.execMixColumns s
  | .invMixColumns => Sys2Proof.Machine.execInvMixColumns s
  | .addRoundKey rnd => Sys2Proof.Machine.execAddRoundKey rnd s
  | .addRoundKeyImc rnd => Sys2Proof.Machine.execAddRoundKeyImc rnd s
  | .encrypt len => Sys2Proof.Machine.execEncrypt len s
  | .decrypt len => Sys2Proof.Machine.execDecrypt len s

end Sys2Proof.Machine
end

