-- ==== Sys2Proof/Machine/Sequencer.lean ====
section
/-! DEFINITION. The core's internal agent, the command sequencer (R20): what a cycle of the command in flight
does to its hidden state (R40), and its completion step (R215). -/

namespace Sys2Proof.Machine

/-- One cycle of `LAT(op)` that does not complete the command: the datapath takes its next round step on the
working copy, if the command has one (R40, R196; assumption 7). -/
def Flight.advance (f : Flight) : Flight :=
  match decode f.cmd with
  | .error _ => f
  | .ok i =>
    match roundStep i f.snap f.stepsDone f.work with
    | none => f
    | some b => { f with work := b, stepsDone := f.stepsDone + 1 }

/-- A cycle of the sequencer. Between issue and completion it changes the hidden state only (R40, R31). -/
def State.cycleOnce (s : State) : State := { s with flight := s.flight.map Flight.advance }

/-- `complete()`, "The sequencer's only step ... enabled while STATUS.BUSY = 1" (R215): the command's row is
found, an illegal word ends in IllegalCommand (R238), and otherwise the row's pseudocode runs. With no
command in flight the step is not enabled and nothing happens. -/
def State.complete (s : State) : Host.Outcome State Fault Refusal :=
  match s.flight with
  | none => .next s
  | some f =>
    match decode f.cmd with
    | .ok i => exec i s
    | .error _ => .next (s.raise .illegalCommand)

end Sys2Proof.Machine
end

