-- ==== Sys2Proof/Machine/Turn.lean ====
section
/-! DEFINITION. One turn of one agent: a host, the sequencer, or the platform's reset (R20, R69, R261, R272). -/

namespace Sys2Proof.Machine

/-- What the agent whose turn it is does. -/
def State.runTurn (t : Turn) (s : State) : Host.Outcome State Fault Refusal :=
  match t with
  | .host k => s.hostTurn k
  | .cycle => .next s.cycleOnce
  | .complete => s.complete
  | .reset => .next s.resetCore

/-- The first host with a statement left. -/
def State.activeHost (s : State) : Nat := s.hosts.findIdx fun h => !h.finished

/-- What happens when no turn is listed: a command in flight completes, "the step is taken under weak
fairness" (R217, U17), and otherwise the first host with a statement left goes on; an idle core with no
such host "holds all its state" (R248). -/
def State.idleTurn (s : State) : Host.Outcome State Fault Refusal :=
  if s.busy then s.complete else s.hostTurn s.activeHost

/-- "A run ends when the host has performed its last statement and STATUS.BUSY = 0." (R218) The spec says this
of one host. With several on the port (R246) the model's run ends when ALL of them have (DESIGN CHOICE,
assumption 19). -/
def State.runEnded (s : State) : Bool := s.hosts.all HostAgent.finished && !s.busy

end Sys2Proof.Machine
end

