-- ==== Sys2Proof/Machine/Step.lean ====
section
/-! DEFINITION. One step of the machine: the next turn of the schedule. -/

namespace Sys2Proof.Machine

/-- One step: the agent listed first acts; with none listed, `State.idleTurn`. -/
def step (s : State) : Host.Outcome State Fault Refusal :=
  match s.turns with
  | [] => s.idleTurn
  | t :: rest => State.runTurn t { s with turns := rest }

/-- The state in which the command whose bits are w is in flight, with the operands as they stand, and its
completion is the very next step. The core "fetches no instructions. A command is the 32-bit value the
host writes to CMD" (R72), so this stands for that write (R214; assumption 1). -/
def State.withFetchWord (s : State) (nbits w : Nat) : State :=
  { s.issue (BitVec.ofNat 32 (w % 2 ^ nbits)) with turns := .complete :: s.turns }

end Sys2Proof.Machine
end

