-- ==== Sys2Proof/Safety.lean ====
section
/-! DEFINITION. What counts as a good state and a good run, in the terms the statements use. -/

namespace Sys2Proof

/-- The scalar commands of R25, the only ones that write RESULT (R26). -/
def Instr.isScalar : Instr → Bool
  | .gfMul | .gfAdd | .rotWord | .subWord | .rcon | .sbox | .invSbox => true
  | .nop | .keyExpand _ | .subBytes | .invSubBytes | .shiftRows | .invShiftRows | .mixColumns
  | .invMixColumns | .addRoundKey _ | .addRoundKeyImc _ | .encrypt _ | .decrypt _ => false

/-- The State commands: the round transforms and the block commands (R23). -/
def Instr.isStateCommand : Instr → Bool
  | .subBytes | .invSubBytes | .shiftRows | .invShiftRows | .mixColumns | .invMixColumns
  | .addRoundKey _ | .addRoundKeyImc _ | .encrypt _ | .decrypt _ => true
  | .nop | .gfMul | .gfAdd | .rotWord | .subWord | .rcon | .keyExpand _ | .sbox | .invSbox => false

/-- The illegal words as R85 lists them: an OP outside the table, or a listed OP with a field set that its
class requires to be 0 (R81). `n` is OP. -/
def illegalWord (w : Word) : Prop :=
  let n := (w &&& 0xFF).toNat
  (0x03 ≤ n ∧ n ≤ 0x0F) ∨ (0x13 ≤ n ∧ n ≤ 0x17) ∨ (0x19 ≤ n ∧ n ≤ 0x1F) ∨ (0x22 ≤ n ∧ n ≤ 0x2F) ∨
  (0x38 ≤ n ∧ n ≤ 0x3F) ∨ (0x42 ≤ n ∧ n ≤ 0xFF) ∨
  (n ∈ [0x00, 0x01, 0x02, 0x10, 0x11, 0x12, 0x20, 0x21, 0x30, 0x31, 0x32, 0x33, 0x34, 0x35] ∧
    w &&& 0xFFFFFF00 ≠ 0) ∨
  (n ∈ [0x36, 0x37] ∧ w &&& 0xFFFFF000 ≠ 0) ∨
  (n ∈ [0x18, 0x40, 0x41] ∧ w &&& 0xFF00FF00 ≠ 0)

/-- `i` is a class N command with match value m (R81, R83): its one word is m, and a word with its OP and any
other bit set is illegal (R85). -/
def ClassNEncoding (i : Instr) (m : Word) : Prop :=
  encode i = m ∧ decode m = .ok i ∧
  ∀ w : Word, w &&& 0xFF = m → w ≠ m → ∃ e, decode w = .error e

/-- `i n` are class R commands with match value m: RND is bits [11:8], and a word with their OP and any bit set
outside OP and RND is illegal. -/
def ClassREncoding (i : Nat → Instr) (m : Word) : Prop :=
  (∀ n < 16, encode (i n) = m ||| BitVec.ofNat 32 n <<< 8 ∧
    decode (m ||| BitVec.ofNat 32 n <<< 8) = .ok (i n)) ∧
  ∀ w : Word, w &&& 0xFF = m → w &&& 0xFFFFF0FF ≠ m → ∃ e, decode w = .error e

/-- `i n` are class L commands with match value m: LEN is bits [23:16], and a word with their OP and any bit set
outside OP and LEN is illegal. -/
def ClassLEncoding (i : Nat → Instr) (m : Word) : Prop :=
  (∀ n < 256, encode (i n) = m ||| BitVec.ofNat 32 n <<< 16 ∧
    decode (m ||| BitVec.ofNat 32 n <<< 16) = .ok (i n)) ∧
  ∀ w : Word, w &&& 0xFF = m → w &&& 0xFF00FFFF ≠ m → ∃ e, decode w = .error e

end Sys2Proof

namespace Sys2Proof.Machine

/-- The working copy after `n` round steps of the command in flight (R40). -/
def workAfter (i : Instr) (snap : Snapshot) : Nat → Block
  | 0 => snap.block
  | n + 1 => (roundStep i snap n (workAfter i snap n)).getD (workAfter i snap n)

/-- The hidden state of a command in flight is one it passes through: at most 15 AddRoundKey steps are done,
and the working copy is what they make of the State at issue (R40, R196). -/
def Flight.OnCourse (f : Flight) : Prop :=
  f.stepsDone ≤ 15 ∧
    match decode f.cmd with
    | .error _ => f.work = f.snap.block ∧ f.stepsDone = 0
    | .ok i => f.work = workAfter i f.snap f.stepsDone

/-- The invariant of the machine: the states a run can reach from reset all meet it. -/
structure State.Inv (s : State) : Prop where
  /-- ERRCODE is a code of R231's table; 6 to 15 are "never produced" (R231, U12). -/
  errcode_listed : s.errcode.toNat ≤ 5
  /-- "1 when the schedule store holds a schedule expanded from a key" (R28). -/
  schedule_expanded : s.keyValid = true → ∃ k : Key, s.sched = keyExpansion k
  /-- "the snapshot equals the registers' current values in every run that does not fault" (R215). -/
  snapshot_current : ∀ f, s.flight = some f → f.snap = s.snapshot
  /-- The hidden datapath is on its course (R40). -/
  datapath_on_course : ∀ f, s.flight = some f → f.OnCourse
  /-- Host variables keep their canonical form. -/
  vars_canonical : ∀ h ∈ s.hosts, varsWf h.vars = true

/-- Host k has the next turn: the list of turns says so, or the list is used up, no command is in flight and
k is the first host with a statement left (assumption 8). -/
def State.hasTurn (s : State) (k : Nat) : Prop :=
  s.turns.head? = some (.host k) ∨ s.turns = [] ∧ s.busy = false ∧ k = s.activeHost

/-- The key of the known-answer vector: bytes 0x00 to 0x1f (R191, 95_test_vectors.md). -/
def knownAnswerKey : Key :=
  #v[0x00010203, 0x04050607, 0x08090a0b, 0x0c0d0e0f, 0x10111213, 0x14151617, 0x18191a1b, 0x1c1d1e1f]

/-- The decryption the source also allows, in textbook order: "sub → shift → add-key → mix in each middle
round, with the plain round keys" (R195). Not used by the machine. -/
def textbookMiddle (w : Schedule) (s : Block) (round : Nat) : Block :=
  mixColumns (addRoundKey (shiftRows (subBytes s true) true) (roundKey w round)) true

/-- Decryption in textbook order (R195). -/
def textbookInvCipher (w : Schedule) (s : Block) : Block :=
  decFinal w (middleRounds.reverse.foldl (textbookMiddle w) (addRoundKey s (roundKey w 14)))

end Sys2Proof.Machine
end

