-- ==== Sys2Proof/Certificates/Slice0/Obligations.lean ====
section
/-! DEFINITION. The statements about the core, from the spec's numbered rules. Each one's docstring names the
rules it formalises, or says that it rests on a choice of the model's. -/

open Sys2Proof Sys2Proof.Machine

/-! ### Encoding -/

/-- R83, R84: decoding the encoding of a well-formed command gives the command back, for every value of RND
and LEN their fields admit. -/
def Obligations.EncodeThenDecodeReturnsCommand : Prop :=
  ∀ i : Instr, i.wellFormed = true → decode (encode i) = .ok i

/-- R83, R85: a word that decodes carries a well-formed command and is that command's one encoding. -/
def Obligations.DecodedWordIsItsCommandsEncoding : Prop :=
  ∀ (w : Word) (i : Instr), decode w = .ok i → i.wellFormed = true ∧ encode i = w

/-- R83: "The rows are pairwise disjoint, so at most one row matches any word." -/
def Obligations.OpcodeRowsArePairwiseDisjoint : Prop :=
  opcodeTable.Pairwise fun r r' => ∀ w : Word, ¬ (r.selects w = true ∧ r'.selects w = true)

/-- R84 with R83's match values: the word of each of the 19 commands, RND and LEN in their fields. -/
def Obligations.EncodingOfEveryCommand : Prop :=
  encode .nop = 0x00000000 ∧ encode .gfMul = 0x00000001 ∧ encode .gfAdd = 0x00000002 ∧
  encode .rotWord = 0x00000010 ∧ encode .subWord = 0x00000011 ∧ encode .rcon = 0x00000012 ∧
  encode .sbox = 0x00000020 ∧ encode .invSbox = 0x00000021 ∧
  encode .subBytes = 0x00000030 ∧ encode .invSubBytes = 0x00000031 ∧
  encode .shiftRows = 0x00000032 ∧ encode .invShiftRows = 0x00000033 ∧
  encode .mixColumns = 0x00000034 ∧ encode .invMixColumns = 0x00000035 ∧
  (∀ rnd < 16, encode (.addRoundKey rnd) = BitVec.ofNat 32 rnd <<< 8 ||| 0x00000036 ∧
    encode (.addRoundKeyImc rnd) = BitVec.ofNat 32 rnd <<< 8 ||| 0x00000037) ∧
  (∀ len < 256, encode (.keyExpand len) = BitVec.ofNat 32 len <<< 16 ||| 0x00000018 ∧
    encode (.encrypt len) = BitVec.ofNat 32 len <<< 16 ||| 0x00000040 ∧
    encode (.decrypt len) = BitVec.ofNat 32 len <<< 16 ||| 0x00000041) ∧
  encode (.encrypt 16) = 0x00100040 ∧ encode (.keyExpand 32) = 0x00200018 ∧
  encode (.addRoundKey 14) = 0x00000E36

/-- 95_test_vectors.md section 6.1 and R83: words written out from the encoding decode to their commands,
and words it rejects do not decode. -/
def Obligations.WrittenOutWordsDecode : Prop :=
  decode 0x00000000 = .ok .nop ∧ decode 0x00000001 = .ok .gfMul ∧ decode 0x00000012 = .ok .rcon ∧
  decode 0x00000020 = .ok .sbox ∧ decode 0x00000E36 = .ok (.addRoundKey 14) ∧
  decode 0x00000F36 = .ok (.addRoundKey 15) ∧ decode 0x00000137 = .ok (.addRoundKeyImc 1) ∧
  decode 0x00200018 = .ok (.keyExpand 32) ∧ decode 0x00100041 = .ok (.decrypt 16) ∧
  decode 0x00000100 = .error .unusedFieldNonzero ∧ decode 0x00100001 = .error .unusedFieldNonzero ∧
  decode 0x00001036 = .error .unusedFieldNonzero ∧ decode 0x80200018 = .error .unusedFieldNonzero ∧
  decode 0x00000003 = .error .undefinedOp ∧ decode 0xFFFFFFFF = .error .undefinedOp

/-- R85, R238: the words R85 lists decode to no command, the completion of one ends with ERRCODE 5, BUSY 0 and
no other change, and every other word is a command. -/
def Obligations.IllegalWordsEndInIllegalCommand : Prop :=
  (∀ (s : State) (f : Flight), s.flight = some f → illegalWord f.cmd →
    s.complete = .next { s with errcode := 5, flight := none }) ∧
  ∀ w : Word, (∃ i, decode w = .ok i) ↔ ¬ illegalWord w

/-! ### The step, issue and completion -/

/-- R215: the step in which the sequencer takes its turn, or in which no turn is listed (assumption 8), is the
completion of the command in flight, and a command whose word decodes is run by exec. A command placed for
the next step runs in it, with the operands as they stand (R72, R214; assumption 1). -/
def Obligations.StepRunsTheDecodedCommand : Prop :=
  (∀ (s : State) (f : Flight), s.flight = some f →
    (s.turns = [] → step s = s.complete) ∧
    (∀ rest, s.turns = .complete :: rest → step s = State.complete { s with turns := rest }) ∧
    ∀ i, decode f.cmd = .ok i →
      s.complete = exec i s ∧ (s.turns = [] → step s = exec i s) ∧
      ∀ rest, s.turns = .complete :: rest → step s = exec i { s with turns := rest }) ∧
  ∀ (s : State) (w : Nat) (i : Instr), decodeTableWord 32 w = some i →
    step (s.withFetchWord 32 w) = exec i (s.issue (BitVec.ofNat 32 w))

/-- R214: a CMD write with BUSY = 0 latches the word and the operands, sets BUSY and changes nothing else,
whatever the word; with BUSY = 1 it faults. -/
def Obligations.CmdWriteIssuesTheCommand : Prop :=
  ∀ (s : State) (w : Word),
    (s.flight = none → ∃ f : Flight, s.memWrite 0x000 4 w = .next { s with flight := some f } ∧
      ({ s with flight := some f } : State).busy = true ∧ f.cmd = w ∧
      f.snap.key = s.key ∧ f.snap.block = s.block ∧ f.snap.opnd = s.opnd ∧ f.snap.sched = s.sched ∧
      f.snap.keyValid = s.keyValid) ∧
    (s.flight.isSome = true → s.memWrite 0x000 4 w = .fault .hostWriteWhileBusy)

/-- R31: "Every command completes, including NOP and every command that ends in error", in the one step that
clears BUSY. Whose turn it is, is the model's list of turns (assumption 8). -/
def Obligations.EveryCommandCompletes : Prop :=
  ∀ (s : State) (f : Flight) (rest : List Turn),
    s.flight = some f → (s.turns = .complete :: rest ∨ s.turns = [] ∧ rest = []) →
    ∃ t, step s = .next t ∧ t.flight = none ∧ t.turns = rest ∧ t.hosts = s.hosts ∧ t.draws = s.draws

/-- R40, R69: a cycle that does not complete the command changes nothing a host can read. That a cycle is a
turn, and what it does to the hidden datapath, are the model's choices (assumptions 7, 8). For a register that is
unspecified at the state (RESULT, STATE and RKW while BUSY = 1) the equality is the model's choice too: it holds
because a cycle draws nothing and `Config.freeObserved` sees the same counter before and after (assumption 3). -/
def Obligations.CyclesAreInvisibleToHosts : Prop :=
  ∀ (s : State) (rest : List Turn), s.turns = .cycle :: rest →
    ∃ fl, step s = .next { s with turns := rest, flight := fl } ∧ fl.isSome = s.flight.isSome ∧
      ∀ r, ({ s with turns := rest, flight := fl } : State).observe r = s.observe r

/-- R215, R40: what a completion does depends on the command word and the latched operands, not on how far
the hidden datapath of assumption 7 has come. -/
def Obligations.CompletionIgnoresHiddenDatapath : Prop :=
  ∀ (s : State) (f : Flight) (work : Block) (n : Nat),
    ({ s with flight := some f } : State).complete =
      ({ s with flight := some { f with work := work, stepsDone := n } } : State).complete

/-- R190, R192, R196, R40: the hidden datapath of an ENCRYPT or DECRYPT that passes its checks does exactly
15 AddRoundKey steps, after which its working copy is what Cipher or InvCipher gives, and then no more. That
it does one of them a cycle is the model's choice (assumption 7). -/
def Obligations.DatapathReachesTheCipherResult : Prop :=
  ∀ s : State, s.keyValid = true →
    (∀ f, (s.issue 0x00100040).flight = some f →
      (Nat.repeat Flight.advance 15 f).work = cipher s.sched s.block ∧
      (Nat.repeat Flight.advance 15 f).stepsDone = 15 ∧
      ∀ n, Nat.repeat Flight.advance (15 + n) f = Nat.repeat Flight.advance 15 f) ∧
    (∀ f, (s.issue 0x00100041).flight = some f →
      (Nat.repeat Flight.advance 15 f).work = invCipher s.sched s.block ∧
      (Nat.repeat Flight.advance 15 f).stepsDone = 15 ∧
      ∀ n, Nat.repeat Flight.advance (15 + n) f = Nat.repeat Flight.advance 15 f)

/-- R217: a host that begins its WAIT loop leaves it. Whatever turns the schedule still gives that host and
the sequencer's cycles, once they are used up the command in flight completes, and after at most three more
steps the host stands behind the loop with BUSY = 0 and "every write of the waited-for command is
visible". The finite list of turns is the model's reading of weak fairness (assumption 8), and the host's
language, its indices and its one statement a step are assumptions 13 to 15. Several hosts, resets and
listed completion turns are not in it. -/
def Obligations.WaitTerminates : Prop :=
  ∀ (s w : State) (h : HostAgent) (L t : Nat),
    s.hosts = [h] → h.prog[L]? = some (rdReg .status t) →
    h.prog[L + 1]? = some (.ifGoto (.bit (.var t) 0) L) → h.pc = L → varsWf h.vars = true →
    (∀ x ∈ s.turns, x = .host 0 ∨ x = .cycle) → s.busy = true → s.complete = .next w →
    ∃ (n : Nat) (u : State), n ≤ s.turns.length + 4 ∧ Host.Core.run core n s = .next u ∧
      u.busy = false ∧ u.hosts.map HostAgent.pc = [L + 2] ∧ u.hosts.map HostAgent.prog = [h.prog] ∧
      u.key = w.key ∧ u.block = w.block ∧ u.opnd = w.opnd ∧ u.result = w.result ∧
      u.sched = w.sched ∧ u.keyValid = w.keyValid ∧ u.errcode = w.errcode

/-- R88: WR and RD at an offset are accesses at that offset, and RD puts the value read in the host's variable.
That a statement is one step on a turn of the list, in which the host also moves on to the next index, is
the model's choice (assumptions 8, 14, 15). Places named by byte address are not in it (WindowAddresses). -/
def Obligations.HostStatementsAccessTheWindow : Prop :=
  ∀ (s : State) (h : HostAgent) (k off : Nat) (rest : List Turn),
    s.turns = .host k :: rest → s.hosts[k]? = some h → off < 0x200 →
    (∀ v, h.prog[h.pc]? = some (.wr (.off off) 4 v) →
      step s = State.memWrite off 4 (v.eval h.vars)
        { s with turns := rest, hosts := s.hosts.set k { h with pc := h.pc + 1 } }) ∧
    (∀ t v s', h.prog[h.pc]? = some (.rd (.off off) 4 t) →
      State.memRead off 4 { s with turns := rest } = .next (v, s') →
      step s = .next
        { s' with hosts := s'.hosts.set k { h with pc := h.pc + 1, vars := varsSet h.vars t v } })

/-! ### Reset and the invariant -/

/-- R260, R262: after reset the core is idle, KEY_VALID, ERR and ERRCODE are 0, and STATUS and CMD read 0. -/
def Obligations.ResetLeavesStatusZero : Prop :=
  State.reset.flight = none ∧ State.reset.busy = false ∧ State.reset.keyValid = false ∧
  State.reset.errcode = 0 ∧ State.reset.err = false ∧
  State.reset.memRead 0x004 4 = .next (0, State.reset) ∧
  State.reset.memRead 0x000 4 = .next (0, State.reset)

/-- R261: a reset abandons the command in flight: none of its writes take effect and its ERRCODE is not
recorded (the outcome is the same whatever was in flight), and STATUS is 0. That hosts and turns stay is
the model's choice (assumption 4). So is it that the two outcomes of the last clause agree on the data registers,
which R260 leaves unspecified: both states draw them from the same counter (assumption 3). -/
def Obligations.ResetAbandonsTheCommandInFlight : Prop :=
  ∀ (s : State) (rest : List Turn), s.turns = .reset :: rest →
    (∃ t, step s = .next t ∧ t.flight = none ∧ t.keyValid = false ∧ t.errcode = 0 ∧
      t.statusWord = 0 ∧ t.hosts = s.hosts ∧ t.turns = rest) ∧
    (∀ fl e, step { s with flight := fl, errcode := e } = step s)

/-- The reset state meets the machine's invariant (its register values are assumption 2's). -/
def Obligations.ResetMeetsTheInvariant : Prop := State.reset.Inv

/-- Every step from a state that meets the invariant gives a state that meets it: ERRCODE stays a listed
code (R231), a valid schedule is one expanded from a key (R28), the latched operands stay the registers'
current values (R215), the hidden datapath stays on its course (R40, assumption 7), and host variables stay
canonical (assumption 6). -/
def Obligations.EveryStepKeepsTheInvariant : Prop :=
  ∀ s t : State, s.Inv → step s = .next t → t.Inv

/-! ### STATUS and the register window -/

/-- R28, R33: the fields of STATUS, its reserved bits, its read, and that a write of it is ignored. -/
def Obligations.StatusFields : Prop :=
  ∀ s : State,
    s.statusWord.getLsbD 0 = s.flight.isSome ∧ s.statusWord.getLsbD 1 = s.keyValid ∧
    s.statusWord.getLsbD 2 = (s.errcode != 0) ∧ s.statusWord.getLsbD 3 = false ∧
    s.statusWord.extractLsb' 4 4 = s.errcode ∧ (∀ i, 8 ≤ i → s.statusWord.getLsbD i = false) ∧
    s.memRead 0x004 4 = .next (s.statusWord, s) ∧ ∀ v, s.memWrite 0x004 4 v = .next s

/-- R21, R63: which register stands at each offset of the window, and that every other offset is reserved. -/
def Obligations.RegisterMap : Prop :=
  regAt 0x000 = some .cmd ∧ regAt 0x004 = some .status ∧ regAt 0x008 = some .opnd ∧
  regAt 0x00C = some .result ∧ (∀ c : Fin 4, regAt (0x010 + 4 * c.val) = some (.state c)) ∧
  (∀ i : Fin 8, regAt (0x020 + 4 * i.val) = some (.key i)) ∧
  (∀ i : Fin 60, regAt (0x100 + 4 * i.val) = some (.rkw i)) ∧
  (∀ off, 0x040 ≤ off → off ≤ 0x0FF → regAt off = none) ∧
  (∀ off, 0x1F0 ≤ off → off ≤ 0x1FF → regAt off = none) ∧
  ∀ off r, regAt off = some r → r.off = off

/-- R210, R27, R63, R274: what a host read returns, register by register. An unspecified value is some value;
nothing is said of it, and the read changes only the model's counter of draws (assumption 3). -/
def Obligations.HostReads : Prop :=
  ∀ s : State,
    s.memRead 0x000 4 = .next (0, s) ∧ s.memRead 0x008 4 = .next (s.opnd, s) ∧
    (∀ i : Fin 8, s.memRead (0x020 + 4 * i.val) 4 = .next (s.key[i], s)) ∧
    (∀ off, off % 4 = 0 → 0x040 ≤ off ∧ off < 0x100 ∨ 0x1F0 ≤ off ∧ off < 0x200 →
      s.memRead off 4 = .next (0, s)) ∧
    (s.flight = none → s.memRead 0x00C 4 = .next (s.result, s)) ∧
    (s.flight = none → ∀ c : Fin 4, s.memRead (0x010 + 4 * c.val) 4 = .next (s.block[c], s)) ∧
    (s.flight = none → s.keyValid = true →
      ∀ i : Fin 60, s.memRead (0x100 + 4 * i.val) 4 = .next (s.sched[i], s)) ∧
    (s.flight.isSome = true →
      (∃ v, s.memRead 0x00C 4 = .next (v, { s with draws := s.draws + 1 })) ∧
      ∀ c : Fin 4, ∃ v, s.memRead (0x010 + 4 * c.val) 4 = .next (v, { s with draws := s.draws + 1 })) ∧
    (s.flight.isSome = true ∨ s.keyValid = false →
      ∀ i : Fin 60, ∃ v, s.memRead (0x100 + 4 * i.val) 4 = .next (v, { s with draws := s.draws + 1 }))

/-- R211, R42, R63, R66: what a host write of a register other than CMD does with BUSY = 0, and that writes
of read-only registers and reserved offsets are ignored at every time. -/
def Obligations.HostWrites : Prop :=
  ∀ (s : State) (v : Word),
    (s.flight = none →
      s.memWrite 0x008 4 v = .next { s with opnd := v } ∧
      (∀ c : Fin 4, ∃ b, s.memWrite (0x010 + 4 * c.val) 4 v = .next { s with block := b } ∧
        ∀ d : Fin 4, b[d] = if d = c then v else s.block[d]) ∧
      ∀ i : Fin 8, ∃ k, s.memWrite (0x020 + 4 * i.val) 4 v = .next { s with key := k } ∧
        ∀ j : Fin 8, k[j] = if j = i then v else s.key[j]) ∧
    s.memWrite 0x004 4 v = .next s ∧ s.memWrite 0x00C 4 v = .next s ∧
    (∀ i : Fin 60, s.memWrite (0x100 + 4 * i.val) 4 v = .next s) ∧
    ∀ off, off % 4 = 0 → 0x040 ≤ off ∧ off < 0x100 ∨ 0x1F0 ≤ off ∧ off < 0x200 →
      s.memWrite off 4 v = .next s

/-- R273: a host write to CMD, KEY0..7, STATE0..3 or OPND while BUSY = 1 is a host fault. -/
def Obligations.WritesWhileBusyFault : Prop :=
  ∀ (s : State) (v : Word), s.flight.isSome = true →
    s.memWrite 0x000 4 v = .fault .hostWriteWhileBusy ∧
    s.memWrite 0x008 4 v = .fault .hostWriteWhileBusy ∧
    (∀ c : Fin 4, s.memWrite (0x010 + 4 * c.val) 4 v = .fault .hostWriteWhileBusy) ∧
    ∀ i : Fin 8, s.memWrite (0x020 + 4 * i.val) 4 v = .fault .hostWriteWhileBusy

/-- R62: an access of another width than 32 bits, or at an offset with off[1:0] != 0, is a fault of the host
program. -/
def Obligations.MalformedAccessesFault : Prop :=
  ∀ (s : State) (off width : Nat) (v : Word), width ≠ 4 ∨ off % 4 ≠ 0 →
    s.memRead off width = .fault .badAccess ∧ s.memWrite off width v = .fault .badAccess

/-- R60: for every BASE that is a multiple of 0x200, the byte addresses BASE to BASE + 0x1FF name the offsets
0 to 0x1FF, and no other address names one. Which multiple BASE is stays open (assumption 10). -/
def Obligations.WindowAddresses : Prop :=
  (∃ n, Config.base = 0x200 * n) ∧
  ∀ n addr off : Nat,
    windowOffset (0x200 * n) addr = some off ↔ addr = 0x200 * n + off ∧ off < 0x200

/-- R242, R273, R62: a step faults only by a statement of the host that has the turn: an access of another width
or alignment, or, with BUSY = 1, a 32-bit write at the offset of CMD, OPND, STATE0..3 or KEY0..7. It is
refused only for an access of that host outside the window (assumption 11). So no command and no reset stops
a run. Which host has the turn is assumption 8. -/
def Obligations.OnlyHostAccessesStopARun : Prop :=
  ∀ s : State,
    (∀ r, step s = .fault r → ∃ (k : Nat) (h : HostAgent) (p : Place) (off width : Nat),
      s.hasTurn k ∧ s.hosts[k]? = some h ∧ p.offset = some off ∧
      (r = .badAccess ∧ (width ≠ 4 ∨ off % 4 ≠ 0) ∧
          ((∃ v, h.prog[h.pc]? = some (.wr p width v)) ∨ ∃ t, h.prog[h.pc]? = some (.rd p width t)) ∨
        r = .hostWriteWhileBusy ∧ s.flight.isSome = true ∧ width = 4 ∧
          (∃ v, h.prog[h.pc]? = some (.wr p width v)) ∧
          (off = 0x000 ∨ off = 0x008 ∨ (∃ c : Fin 4, off = 0x010 + 4 * c.val) ∨
            ∃ i : Fin 8, off = 0x020 + 4 * i.val))) ∧
    (∀ r, step s = .refused r → r = .outsideWindow ∧ ∃ (k : Nat) (h : HostAgent) (p : Place) (width : Nat),
      s.hasTurn k ∧ s.hosts[k]? = some h ∧ p.offset = none ∧
      ((∃ v, h.prog[h.pc]? = some (.wr p width v)) ∨ ∃ t, h.prog[h.pc]? = some (.rd p width t)))

/-! ### Frames over all commands and all steps -/

/-- R22, R25: no command writes KEY0..7 or OPND, and none touches the hosts, the turns or the counter of
draws. -/
def Obligations.CommandsNeverWriteKeyOrOperand : Prop :=
  ∀ (i : Instr) (s t : State), exec i s = .next t →
    t.key = s.key ∧ t.opnd = s.opnd ∧ t.hosts = s.hosts ∧ t.turns = s.turns ∧ t.draws = s.draws

/-- R26: "Only the scalar commands of rule R25 write RESULT", and they write no other data register. -/
def Obligations.OnlyScalarCommandsWriteResult : Prop :=
  ∀ (i : Instr) (s t : State), exec i s = .next t →
    (i.isScalar = false → t.result = s.result) ∧
    (i.isScalar = true → t.block = s.block ∧ t.sched = s.sched ∧ t.keyValid = s.keyValid)

/-- R23: only the round-transform and the block commands write STATE0..3, and they write no RESULT, schedule
word or KEY_VALID. -/
def Obligations.OnlyStateCommandsWriteState : Prop :=
  ∀ (i : Instr) (s t : State), exec i s = .next t →
    (i.isStateCommand = false → t.block = s.block) ∧
    (i.isStateCommand = true → t.result = s.result ∧ t.sched = s.sched ∧ t.keyValid = s.keyValid)

/-- R34, R32: but for a reset, a step that changes the schedule store or KEY_VALID is the completion of a
KEY_EXPAND with LEN = 32, and it leaves the whole schedule of the latched key and KEY_VALID = 1. -/
def Obligations.ScheduleChangesOnlyByKeyExpand : Prop :=
  ∀ s t : State, step s = .next t → s.turns.head? ≠ some .reset →
    t.sched ≠ s.sched ∨ t.keyValid ≠ s.keyValid →
    ∃ f, s.flight = some f ∧ decode f.cmd = .ok (.keyExpand 32) ∧
      t.sched = keyExpansion f.snap.key ∧ t.keyValid = true ∧ t.flight = none ∧ t.errcode = 0

/-- R22, R275: KEY0..7 change only by a host's write of a KEY register with BUSY = 0, or by a reset; such a
write changes neither the schedule store nor KEY_VALID. -/
def Obligations.KeyChangesOnlyByHostWrite : Prop :=
  ∀ s t : State, step s = .next t → s.turns.head? ≠ some .reset → t.key ≠ s.key →
    s.flight = none ∧ t.sched = s.sched ∧ t.keyValid = s.keyValid ∧ t.block = s.block ∧
    ∃ (k : Nat) (h : HostAgent) (p : Place) (v : HostExpr) (i : Fin 8),
      s.hosts[k]? = some h ∧ h.prog[h.pc]? = some (.wr p 4 v) ∧
      p.offset = some (0x020 + 4 * i.val) ∧ t.key = s.key.set i.val (v.eval h.vars)

/-- R232: a completion that ends with ERRCODE not 0, an illegal word's among them, changes only ERRCODE and
clears BUSY; its code is one of the five of R231. -/
def Obligations.ErrorsHaveNoPartialEffect : Prop :=
  ∀ (s t : State) (f : Flight), s.flight = some f → s.complete = .next t → t.errcode ≠ 0 →
    t = { s with errcode := t.errcode, flight := none } ∧ t.busy = false ∧
    (t.errcode = 1 ∨ t.errcode = 2 ∨ t.errcode = 3 ∨ t.errcode = 4 ∨ t.errcode = 5)

/-! ### The commands

Each of these holds for a command in flight, `s.flight = some f`, and gives the whole state its completion
leaves: `f.snap` are the operands latched at issue, and a field not named is unchanged. The encoding clause
says which words decode to the command, and that its OP with any other field set is illegal; every illegal
word ends with IllegalCommand (IllegalWordsEndInIllegalCommand). -/

/-- R216: NOP writes no register; ERRCODE <- 0 and BUSY <- 0. It is the only command that, whatever the
state, does just this. The example: STATUS = 0x56 becomes 0x02. -/
def Obligations.NopClearsErrcode : Prop :=
  ClassNEncoding .nop 0x00000000 ∧
  (∀ (s : State) (f : Flight), s.flight = some f →
    exec .nop s = .next { s with errcode := 0, flight := none }) ∧
  (∀ i : Instr, (∀ (s : State) (f : Flight), s.flight = some f →
    exec i s = .next { s with errcode := 0, flight := none }) → i = .nop) ∧
  ∀ s : State, s.statusWord = 0x00000056 →
    ∃ t, exec .nop (s.issue 0x00000000) = .next t ∧ t.statusWord = 0x00000002

/-- R102: GF_MUL, with its corner cases and its example. -/
def Obligations.GfMulResult : Prop :=
  ClassNEncoding .gfMul 0x00000001 ∧
  (∀ (s : State) (f : Flight), s.flight = some f → exec .gfMul s = .next
    { s with
      result := (gmul (f.snap.opnd.extractLsb' 0 8) (f.snap.opnd.extractLsb' 8 8)).setWidth 32,
      errcode := 0, flight := none }) ∧
  (∀ b : Byte, gmul 0x00 b = 0x00 ∧ gmul b 0x00 = 0x00 ∧ gmul 0x01 b = b ∧ gmul b 0x01 = b) ∧
  gmul 0x80 0x02 = 0x1B ∧ gmul 0x1B 0x02 = 0x36

/-- R104: GF_ADD, the XOR of the four bytes of OPND, with its corner cases and its example. -/
def Obligations.GfAddResult : Prop :=
  ClassNEncoding .gfAdd 0x00000002 ∧
  (∀ (s : State) (f : Flight), s.flight = some f → exec .gfAdd s = .next
    { s with
      result := (f.snap.opnd.extractLsb' 0 8 ^^^ f.snap.opnd.extractLsb' 8 8 ^^^
        f.snap.opnd.extractLsb' 16 8 ^^^ f.snap.opnd.extractLsb' 24 8).setWidth 32,
      errcode := 0, flight := none }) ∧
  gadd (opndBytes 0x00000000) = 0x00 ∧ gadd (opndBytes 0x0000AAAA) = 0x00 ∧
  gadd (opndBytes 0xFF1B8357) = 0x30

/-- R120, R123: ROT_WORD: byte 0 moves to byte 3 and every other byte moves down one place; with R123's
corner cases and example. -/
def Obligations.RotWordResult : Prop :=
  ClassNEncoding .rotWord 0x00000010 ∧
  (∀ (s : State) (f : Flight), s.flight = some f → exec .rotWord s = .next
    { s with
      result := f.snap.opnd.extractLsb' 0 24 ++ f.snap.opnd.extractLsb' 24 8, errcode := 0, flight := none }) ∧
  (∀ b0 b1 b2 b3 : Byte, rotWord (wordOf b0 b1 b2 b3) = wordOf b1 b2 b3 b0) ∧
  (∀ v : Word, rotWord v = v.extractLsb' 0 24 ++ v.extractLsb' 24 8 ∧
    rotWord (rotWord (rotWord (rotWord v))) = v) ∧
  rotWord 0x0914dff4 = 0x14dff409

/-- R121, R124: SUB_WORD substitutes every byte of the word through SBOX; with R124's corner cases and
example. -/
def Obligations.SubWordResult : Prop :=
  ClassNEncoding .subWord 0x00000011 ∧
  (∀ (s : State) (f : Flight), s.flight = some f → exec .subWord s = .next
    { s with result := subWord f.snap.opnd, errcode := 0, flight := none }) ∧
  (∀ b0 b1 b2 b3 : Byte,
    subWord (wordOf b0 b1 b2 b3) = wordOf (sboxRom b0) (sboxRom b1) (sboxRom b2) (sboxRom b3)) ∧
  (∀ (v : Word) (j : Fin 4), byteOf (subWord v) j = sboxRom (byteOf v j)) ∧
  subWord 0x00000000 = 0x63636363 ∧ subWord 0xFFFFFFFF = 0x16161616 ∧ subWord 0x14dff409 = 0xfa9ebf01

/-- R122, R125: RCON reads Rcon(n), n = OPND[7:0]: 0 for n = 0, 1 for n = 1, and each further entry the
double of the one before; with the first entries, the period 51, and R125's corner cases and example. -/
def Obligations.RconResult : Prop :=
  ClassNEncoding .rcon 0x00000012 ∧
  (∀ (s : State) (f : Flight), s.flight = some f → exec .rcon s = .next
    { s with
      result := (rconRom (f.snap.opnd.extractLsb' 0 8)).setWidth 32, errcode := 0, flight := none }) ∧
  rconRom 0 = 0x00 ∧ rconRom 1 = 0x01 ∧
  (∀ n : Byte, n ≠ 0 → n ≠ 255 → rconRom (n + 1) = gmul (rconRom n) 0x02) ∧
  (∀ n : Fin 205, n.val ≠ 0 → rconRom (BitVec.ofNat 8 (n.val + 51)) = rconRom (BitVec.ofNat 8 n.val)) ∧
  [2, 3, 4, 5, 6, 7, 8, 9, 10, 11, 12, 13, 14].map rconRom =
    [0x02, 0x04, 0x08, 0x10, 0x20, 0x40, 0x80, 0x1b, 0x36, 0x6c, 0xd8, 0xab, 0x4d] ∧
  rconRom 51 = 0x8d ∧ rconRom 52 = 0x01 ∧ rconRom 255 = 0x8d

/-- R150, R151: SBOX and INV_SBOX look OPND[7:0] up in their tables; with their corner cases and examples. -/
def Obligations.SboxLookupResults : Prop :=
  ClassNEncoding .sbox 0x00000020 ∧ ClassNEncoding .invSbox 0x00000021 ∧
  (∀ (s : State) (f : Flight), s.flight = some f →
    exec .sbox s = .next
      { s with
        result := (sboxRom (f.snap.opnd.extractLsb' 0 8)).setWidth 32, errcode := 0, flight := none } ∧
    exec .invSbox s = .next
      { s with
        result := (invSboxRom (f.snap.opnd.extractLsb' 0 8)).setWidth 32, errcode := 0, flight := none }) ∧
  (∀ b : Byte, sboxRom b ≠ b ∧ invSboxRom (sboxRom b) = b) ∧
  sboxRom 0x00 = 0x63 ∧ sboxRom 0xFF = 0x16 ∧ sboxRom 0x53 = 0xed ∧
  invSboxRom 0x63 = 0x00 ∧ invSboxRom 0x00 = 0x52 ∧ invSboxRom 0xed = 0x53

/-- R126, R127: KEY_EXPAND with LEN = 32 writes all 60 words by the source's recurrence, sets KEY_VALID and
changes nothing else but STATUS; with another LEN it ends in InvalidKeyLength and changes nothing but
STATUS. The example is R127's. -/
def Obligations.KeyExpandResult : Prop :=
  ClassLEncoding .keyExpand 0x00000018 ∧
  (∀ (s : State) (f : Flight), s.flight = some f →
    exec (.keyExpand 32) s = .next
      { s with sched := keyExpansion f.snap.key, keyValid := true, errcode := 0, flight := none } ∧
    ∀ len, len ≠ 32 → exec (.keyExpand len) s = .next { s with errcode := 1, flight := none }) ∧
  (∀ k : Key,
    (∀ i : Fin 8, (keyExpansion k)[i.val] = k[i]) ∧
    ∀ (i : Nat) (_ : 8 ≤ i) (_ : i < 60),
      (keyExpansion k)[i] = (keyExpansion k)[i - 8] ^^^
        (if i % 8 = 0 then
          subWord (rotWord (keyExpansion k)[i - 1]) ^^^
            ((rconRom (BitVec.ofNat 8 (i / 8))).setWidth 32 <<< 24)
        else if i % 8 = 4 then subWord (keyExpansion k)[i - 1]
        else (keyExpansion k)[i - 1])) ∧
  ∀ w, w = keyExpansion #v[0x603deb10, 0x15ca71be, 0x2b73aef0, 0x857d7781,
      0x1f352c07, 0x3b6108d7, 0x2d9810a3, 0x0914dff4] →
    roundKey w 0 = #v[0x603deb10, 0x15ca71be, 0x2b73aef0, 0x857d7781] ∧
    roundKey w 14 = #v[0xfe4890d1, 0xe6188d0b, 0x046df344, 0x706c631e]

/-- R152, R153, R154: SUB_BYTES and INV_SUB_BYTES replace every byte of the State through SBOX or INV_SBOX;
with their corner cases and examples. -/
def Obligations.SubBytesResults : Prop :=
  ClassNEncoding .subBytes 0x00000030 ∧ ClassNEncoding .invSubBytes 0x00000031 ∧
  (∀ (s : State) (f : Flight), s.flight = some f →
    exec .subBytes s = .next { s with block := subBytes f.snap.block false, errcode := 0, flight := none } ∧
    exec .invSubBytes s = .next { s with block := subBytes f.snap.block true, errcode := 0, flight := none }) ∧
  (∀ (x : Block) (r c : Fin 4),
    byteAt (subBytes x false) r c = sboxRom (byteAt x r c) ∧
    byteAt (subBytes x true) r c = invSboxRom (byteAt x r c)) ∧
  (∀ x : Block, subBytes (subBytes x false) true = x ∧ subBytes (subBytes x true) false = x) ∧
  subBytes #v[0, 0, 0, 0] false = #v[0x63636363, 0x63636363, 0x63636363, 0x63636363] ∧
  subBytes #v[0x63636363, 0x63636363, 0x63636363, 0x63636363] true = #v[0, 0, 0, 0] ∧
  subBytes #v[0x00112233, 0x44556677, 0x8899aabb, 0xccddeeff] false
    = #v[0x638293c3, 0x1bfc33f5, 0xc4eeacea, 0x4bc12816] ∧
  subBytes #v[0x00112233, 0x44556677, 0x8899aabb, 0xccddeeff] true
    = #v[0x52e39466, 0x86edd302, 0x97f962fe, 0x27c9997d]

/-- R155, R156, R157: SHIFT_ROWS rotates row r left by r places and INV_SHIFT_ROWS right by r places; with
their corner cases and examples. `d` is the column a byte comes from. -/
def Obligations.ShiftRowsResults : Prop :=
  ClassNEncoding .shiftRows 0x00000032 ∧ ClassNEncoding .invShiftRows 0x00000033 ∧
  (∀ (s : State) (f : Flight), s.flight = some f →
    exec .shiftRows s = .next { s with block := shiftRows f.snap.block false, errcode := 0, flight := none } ∧
    exec .invShiftRows s = .next
      { s with block := shiftRows f.snap.block true, errcode := 0, flight := none }) ∧
  (∀ (x : Block) (r c d : Fin 4),
    (d.val = (c.val + r.val) % 4 → byteAt (shiftRows x false) r c = byteAt x r d) ∧
    (d.val = (c.val + 4 - r.val) % 4 → byteAt (shiftRows x true) r c = byteAt x r d)) ∧
  (∀ x : Block, (∀ r c, byteAt x r c = byteAt x r 0) → shiftRows x false = x) ∧
  (∀ x : Block,
    shiftRows (shiftRows x false) true = x ∧ shiftRows (shiftRows x true) false = x ∧
    shiftRows (shiftRows (shiftRows (shiftRows x false) false) false) false = x ∧
    shiftRows x true = shiftRows (shiftRows (shiftRows x false) false) false ∧
    ∀ inv, subBytes (shiftRows x false) inv = shiftRows (subBytes x inv) false) ∧
  shiftRows #v[0x00010203, 0x04050607, 0x08090a0b, 0x0c0d0e0f] false
    = #v[0x00050a0f, 0x04090e03, 0x080d0207, 0x0c01060b] ∧
  shiftRows #v[0x00010203, 0x04050607, 0x08090a0b, 0x0c0d0e0f] true
    = #v[0x000d0a07, 0x04010e0b, 0x0805020f, 0x0c090603]

/-- R158, R160, R161: MIX_COLUMNS and INV_MIX_COLUMNS multiply each column by the fixed matrices, whose rows
are written out; with their corner cases and examples. -/
def Obligations.MixColumnsResults : Prop :=
  ClassNEncoding .mixColumns 0x00000034 ∧ ClassNEncoding .invMixColumns 0x00000035 ∧
  (∀ (s : State) (f : Flight), s.flight = some f →
    exec .mixColumns s = .next
      { s with block := mixColumns f.snap.block false, errcode := 0, flight := none } ∧
    exec .invMixColumns s = .next
      { s with block := mixColumns f.snap.block true, errcode := 0, flight := none }) ∧
  (∀ (x y : Block) (c : Fin 4) (x0 x1 x2 x3 : Byte), x[c] = wordOf x0 x1 x2 x3 →
    (y = mixColumns x false → y[c] = wordOf
      (gmul 2 x0 ^^^ gmul 3 x1 ^^^ gmul 1 x2 ^^^ gmul 1 x3)
      (gmul 1 x0 ^^^ gmul 2 x1 ^^^ gmul 3 x2 ^^^ gmul 1 x3)
      (gmul 1 x0 ^^^ gmul 1 x1 ^^^ gmul 2 x2 ^^^ gmul 3 x3)
      (gmul 3 x0 ^^^ gmul 1 x1 ^^^ gmul 1 x2 ^^^ gmul 2 x3)) ∧
    (y = mixColumns x true → y[c] = wordOf
      (gmul 14 x0 ^^^ gmul 11 x1 ^^^ gmul 13 x2 ^^^ gmul 9 x3)
      (gmul 9 x0 ^^^ gmul 14 x1 ^^^ gmul 11 x2 ^^^ gmul 13 x3)
      (gmul 13 x0 ^^^ gmul 9 x1 ^^^ gmul 14 x2 ^^^ gmul 11 x3)
      (gmul 11 x0 ^^^ gmul 13 x1 ^^^ gmul 9 x2 ^^^ gmul 14 x3))) ∧
  (∀ (x : Block) (c : Fin 4) (b : Byte) (inv : Bool), x[c] = wordOf b b b b → (mixColumns x inv)[c] = x[c]) ∧
  (∀ x : Block, mixColumns (mixColumns x false) true = x ∧ mixColumns (mixColumns x true) false = x) ∧
  mixColumns (Vector.replicate 4 0xd4d4d4d5) false = Vector.replicate 4 0xd5d5d7d6 ∧
  mixColumns (Vector.replicate 4 0xdb135345) false = Vector.replicate 4 0x8e4da1bc ∧
  mixColumns (Vector.replicate 4 0x8e4da1bc) true = Vector.replicate 4 0xdb135345 ∧
  mixColumns (Vector.replicate 4 0xdb135345) true = Vector.replicate 4 0x32a41d55

/-- R162, R163: ADD_ROUND_KEY n XORs round key n (R29: words 4n to 4n+3, one a column) into the State, for n
in 0..14 with KEY_VALID = 1; its errors, its corner cases and its example, whose key is the known-answer
key of R191. -/
def Obligations.AddRoundKeyResult : Prop :=
  ClassREncoding .addRoundKey 0x00000036 ∧
  (∀ (s : State) (f : Flight) (n : Nat), s.flight = some f →
    (14 < n → exec (.addRoundKey n) s = .next { s with errcode := 4, flight := none }) ∧
    (n ≤ 14 → f.snap.keyValid = false →
      exec (.addRoundKey n) s = .next { s with errcode := 3, flight := none }) ∧
    (n ≤ 14 → f.snap.keyValid = true → exec (.addRoundKey n) s = .next
      { s with
        block := addRoundKey f.snap.block (roundKey f.snap.sched n), errcode := 0, flight := none })) ∧
  (∀ (x k : Block) (r c : Fin 4),
    byteAt (addRoundKey x k) r c = byteAt x r c ^^^ byteAt k r c ∧ (addRoundKey x k)[c] = x[c] ^^^ k[c] ∧
    addRoundKey (addRoundKey x k) k = x) ∧
  (∀ (w : Schedule) (n : Nat) (_ : n ≤ 14) (r c : Fin 4),
    byteAt (roundKey w n) r c = byteOf w[4 * n + c.val] r ∧ (roundKey w n)[c] = w[4 * n + c.val]) ∧
  roundKey (keyExpansion knownAnswerKey) 0 = #v[0x00010203, 0x04050607, 0x08090a0b, 0x0c0d0e0f] ∧
  addRoundKey #v[0x00112233, 0x44556677, 0x8899aabb, 0xccddeeff] (roundKey (keyExpansion knownAnswerKey) 0)
    = #v[0x00102030, 0x40506070, 0x8090a0b0, 0xc0d0e0f0]

/-- R164: ADD_ROUND_KEY_IMC n XORs InverseMixColumns of round key n into the State, for n in 0..14 with
KEY_VALID = 1; its errors, its corner case and its example. -/
def Obligations.AddRoundKeyImcResult : Prop :=
  ClassREncoding .addRoundKeyImc 0x00000037 ∧
  (∀ (s : State) (f : Flight) (n : Nat), s.flight = some f →
    (14 < n → exec (.addRoundKeyImc n) s = .next { s with errcode := 4, flight := none }) ∧
    (n ≤ 14 → f.snap.keyValid = false →
      exec (.addRoundKeyImc n) s = .next { s with errcode := 3, flight := none }) ∧
    (n ≤ 14 → f.snap.keyValid = true → exec (.addRoundKeyImc n) s = .next
      { s with
        block := addRoundKey f.snap.block (mixColumns (roundKey f.snap.sched n) true),
        errcode := 0, flight := none })) ∧
  (∀ x k : Block, mixColumns (addRoundKey x k) true = addRoundKey (mixColumns x true) (mixColumns k true)) ∧
  roundKey (keyExpansion knownAnswerKey) 1 = #v[0x10111213, 0x14151617, 0x18191a1b, 0x1c1d1e1f] ∧
  mixColumns (roundKey (keyExpansion knownAnswerKey) 1) true
    = #v[0x1a1f181d, 0x1e1b1c19, 0x12171015, 0x16131411] ∧
  addRoundKey #v[0x00112233, 0x44556677, 0x8899aabb, 0xccddeeff]
      (mixColumns (roundKey (keyExpansion knownAnswerKey) 1) true)
    = #v[0x1a0e3a2e, 0x5a4e7a6e, 0x9a8ebaae, 0xdacefaee]

/-- R190, R191: ENCRYPT with LEN = 16 and KEY_VALID = 1 replaces the State by Cipher of it; its errors in
their order, and its example. `x k` is the State after AddRoundKey with round key k, ascending. -/
def Obligations.EncryptResult : Prop :=
  ClassLEncoding .encrypt 0x00000040 ∧
  (∀ (s : State) (f : Flight), s.flight = some f →
    (∀ len, len ≠ 16 → exec (.encrypt len) s = .next { s with errcode := 2, flight := none }) ∧
    (f.snap.keyValid = false → exec (.encrypt 16) s = .next { s with errcode := 3, flight := none }) ∧
    (f.snap.keyValid = true → exec (.encrypt 16) s = .next
      { s with block := cipher f.snap.sched f.snap.block, errcode := 0, flight := none })) ∧
  (∀ (w : Schedule) (b : Block), ∃ x : Nat → Block,
    x 0 = addRoundKey b (roundKey w 0) ∧
    (∀ k, 1 ≤ k → k ≤ 13 → x k = addRoundKey
      (mixColumns (shiftRows (subBytes (x (k - 1)) false) false) false) (roundKey w k)) ∧
    x 14 = addRoundKey (shiftRows (subBytes (x 13) false) false) (roundKey w 14) ∧
    cipher w b = x 14) ∧
  cipher (keyExpansion knownAnswerKey) #v[0x00112233, 0x44556677, 0x8899aabb, 0xccddeeff]
    = #v[0x8ea2b7ca, 0x516745bf, 0xeafc4990, 0x4b496089]

/-- R192 and R193's effect: DECRYPT with LEN = 16 and KEY_VALID = 1 replaces the State by InvCipher of it, the
equivalent inverse cipher; its errors in their order and its example. `x k` is the State after
AddRoundKey with round key k, descending. -/
def Obligations.DecryptResult : Prop :=
  ClassLEncoding .decrypt 0x00000041 ∧
  (∀ (s : State) (f : Flight), s.flight = some f →
    (∀ len, len ≠ 16 → exec (.decrypt len) s = .next { s with errcode := 2, flight := none }) ∧
    (f.snap.keyValid = false → exec (.decrypt 16) s = .next { s with errcode := 3, flight := none }) ∧
    (f.snap.keyValid = true → exec (.decrypt 16) s = .next
      { s with block := invCipher f.snap.sched f.snap.block, errcode := 0, flight := none })) ∧
  (∀ (w : Schedule) (b : Block), ∃ x : Nat → Block,
    x 14 = addRoundKey b (roundKey w 14) ∧
    (∀ k, 1 ≤ k → k ≤ 13 → x k = addRoundKey
      (mixColumns (shiftRows (subBytes (x (k + 1)) true) true) true) (mixColumns (roundKey w k) true)) ∧
    x 0 = addRoundKey (shiftRows (subBytes (x 1) true) true) (roundKey w 0) ∧
    invCipher w b = x 0) ∧
  invCipher (keyExpansion knownAnswerKey) #v[0x8ea2b7ca, 0x516745bf, 0xeafc4990, 0x4b496089]
    = #v[0x00112233, 0x44556677, 0x8899aabb, 0xccddeeff]

/-- R234, R235, R237: a wrong declared length ends KEY_EXPAND in InvalidKeyLength (1) and ENCRYPT and DECRYPT
in InvalidBlockLength (2); a round index above 14, of which the encoding has only 15, ends both AddRoundKey
commands in InvalidRound (4). KEY_VALID does not matter. Nothing but STATUS changes. -/
def Obligations.CommandFieldErrors : Prop :=
  ∀ (s : State) (n : Nat),
    (n ≠ 32 → exec (.keyExpand n) s = .next { s with errcode := 1, flight := none }) ∧
    (n ≠ 16 → exec (.encrypt n) s = .next { s with errcode := 2, flight := none } ∧
      exec (.decrypt n) s = .next { s with errcode := 2, flight := none }) ∧
    (14 < n → exec (.addRoundKey n) s = .next { s with errcode := 4, flight := none } ∧
      exec (.addRoundKeyImc n) s = .next { s with errcode := 4, flight := none })

/-- R236: with KEY_VALID = 0 the four commands that use round keys end in NoKeySchedule (3), when their LEN
or RND passes its check (R233). Nothing but STATUS changes. -/
def Obligations.NoKeyScheduleErrors : Prop :=
  ∀ (s : State) (f : Flight) (n : Nat), s.flight = some f → f.snap.keyValid = false →
    exec (.encrypt 16) s = .next { s with errcode := 3, flight := none } ∧
    exec (.decrypt 16) s = .next { s with errcode := 3, flight := none } ∧
    (n ≤ 14 → exec (.addRoundKey n) s = .next { s with errcode := 3, flight := none } ∧
      exec (.addRoundKeyImc n) s = .next { s with errcode := 3, flight := none })

/-! ### The arithmetic and the cipher -/

/-- R100: addition is XOR, and the shift-and-add loop computes the product of the two bytes' polynomials over
GF(2) modulo x^8+x^4+x^3+x+1. The coefficient of x^i is the byte's bit i. -/
def Obligations.GmulIsPolynomialProduct : Prop :=
  ∀ (a b : Byte) (poly : Byte → Polynomial (ZMod 2)),
    (∀ x, poly x = ∑ i ∈ Finset.range 8, if x.getLsbD i then Polynomial.X ^ i else 0) →
    gadd [a, b] = a ^^^ b ∧ poly (gadd [a, b]) = poly a + poly b ∧
    ∃ q : Polynomial (ZMod 2), poly a * poly b =
      poly (gmul a b) + q * (Polynomial.X ^ 8 + Polynomial.X ^ 4 + Polynomial.X ^ 3 + Polynomial.X + 1)

/-- R103, R105, R106: gadd folds XOR over any number of bytes, from 0x00; gmul is commutative and distributes
over gadd, 0 annihilates and 1 is neutral; gadd of bytes is commutative and associative, and a byte is its
own negative; multiplying by 0x02 is R106's doubling step. -/
def Obligations.FieldLaws : Prop :=
  (∀ a b : Byte, gmul a b = gmul b a) ∧
  (∀ a b c : Byte, gmul a (gadd [b, c]) = gadd [gmul a b, gmul a c]) ∧
  (∀ a : Byte, gmul a 0x00 = 0x00 ∧ gmul 0x00 a = 0x00 ∧ gmul a 0x01 = a) ∧
  gadd [] = 0x00 ∧ (∀ (b : Byte) (bs : List Byte), gadd (b :: bs) = b ^^^ gadd bs) ∧
  (∀ (bs cs : List Byte), gadd (bs ++ cs) = gadd [gadd bs, gadd cs]) ∧
  (∀ a b c : Byte, gadd [a, b] = gadd [b, a] ∧ gadd [gadd [a, b], c] = gadd [a, gadd [b, c]] ∧
    gadd [a, a] = 0x00 ∧ gadd [a, 0x00] = a) ∧
  ∀ a : Byte, xtime a = (a <<< 1) ^^^ (if a.getLsbD 7 then 0x1B else 0x00) ∧ gmul a 0x02 = xtime a

/-- R38, R37, R165: R38's formula gives SBOX (gfInv being the multiplicative inverse, with inv(0) = 0), and
INV_SBOX[y] is the unique x with SBOX[x] = y; SBOX has no fixed point and no opposite fixed point. -/
def Obligations.SboxTablesAndFormula : Prop :=
  (∀ y x : Byte, sboxRom x = y ↔ x = invSboxRom y) ∧
  (∀ x : Byte, (x ≠ 0 → gmul x (gfInv x) = 1) ∧ sboxRom x = gfInv x ^^^ rotl8 (gfInv x) 1 ^^^
    rotl8 (gfInv x) 2 ^^^ rotl8 (gfInv x) 3 ^^^ rotl8 (gfInv x) 4 ^^^ 0x63) ∧
  gfInv 0 = 0 ∧ ∀ b : Byte, sboxRom b ≠ b ∧ sboxRom b ≠ b ^^^ 0xFF

/-- R165: the inverse forms of SubBytes, ShiftRows and MixColumns undo the forward forms and are undone by
them, SubBytes commutes with ShiftRows in every pair of directions, and MixColumns and ShiftRows do not
commute in general. -/
def Obligations.InverseTransformsUndo : Prop :=
  (∀ s : Block,
    (∀ inv, subBytes (subBytes s inv) (!inv) = s) ∧
    (∀ inv, shiftRows (shiftRows s inv) (!inv) = s) ∧
    (∀ inv, mixColumns (mixColumns s inv) (!inv) = s) ∧
    ∀ inv inv', subBytes (shiftRows s inv') inv = shiftRows (subBytes s inv) inv') ∧
  ∃ s : Block, mixColumns (shiftRows s false) false ≠ shiftRows (mixColumns s false) false

/-- R159: each output byte of MixColumns is the field sum of its matrix row's products with the bytes of the
column, so no other column matters; and the map, in both directions, is linear over byte-wise XOR. -/
def Obligations.MixColumnsIsLinear : Prop :=
  ∀ (x y : Block) (inv : Bool),
    mixColumns (addRoundKey x y) inv = addRoundKey (mixColumns x inv) (mixColumns y inv) ∧
    (∀ r c : Fin 4, byteAt (mixColumns x inv) r c = gadd ((List.finRange 4).map fun j =>
      gmul ((if inv then mixInverse else mixForward)[r][j]) (byteAt x j c))) ∧
    ∀ c : Fin 4, x[c] = y[c] → (mixColumns x inv)[c] = (mixColumns y inv)[c]

/-- R163, R164: on an idle core with a schedule, ADD_ROUND_KEY n issued twice gives the core back but for
ERRCODE, and ADD_ROUND_KEY n then INV_MIX_COLUMNS gives the State that INV_MIX_COLUMNS then
ADD_ROUND_KEY_IMC n gives. -/
def Obligations.AddRoundKeySequences : Prop :=
  ∀ (s : State) (n : Nat), n ≤ 14 → s.flight = none → s.keyValid = true →
    ∃ t u t' u',
      exec (.addRoundKey n) (s.issue (encode (.addRoundKey n))) = .next t ∧
      exec (.addRoundKey n) (t.issue (encode (.addRoundKey n))) = .next { s with errcode := 0 } ∧
      exec .invMixColumns (t.issue (encode .invMixColumns)) = .next u ∧
      exec .invMixColumns (s.issue (encode .invMixColumns)) = .next t' ∧
      exec (.addRoundKeyImc n) (t'.issue (encode (.addRoundKeyImc n))) = .next u' ∧ u = u'

/-- R194: for every schedule and every State, InvCipher undoes Cipher and Cipher undoes InvCipher. -/
def Obligations.CipherRoundTrip : Prop :=
  ∀ (w : Schedule) (s : Block), invCipher w (cipher w s) = s ∧ cipher w (invCipher w s) = s

/-- R195: decryption in textbook order, with plain round keys, gives the same State as the equivalent inverse
cipher. -/
def Obligations.TextbookDecryptionAgrees : Prop :=
  ∀ (w : Schedule) (s : Block), textbookInvCipher w s = invCipher w s

/-- R193, R194: on an idle core with a schedule, ENCRYPT then DECRYPT, and DECRYPT then ENCRYPT, each issued
and completed, restore the whole core but for ERRCODE, which is 0. -/
def Obligations.EncryptDecryptRestoresTheState : Prop :=
  ∀ s : State, s.flight = none → s.keyValid = true →
    (∃ t, exec (.encrypt 16) (s.issue 0x00100040) = .next t ∧
      exec (.decrypt 16) (t.issue 0x00100041) = .next { s with errcode := 0 }) ∧
    ∃ t, exec (.decrypt 16) (s.issue 0x00100041) = .next t ∧
      exec (.encrypt 16) (t.issue 0x00100040) = .next { s with errcode := 0 }

/-- R24: the State is column-major over STATE0..3, generateState and generateOutput are the maps s[r][c] =
in[r + 4c] and out[r + 4c] = s[r][c], exact inverses of each other, and the block's byte sequence is the
bytes of STATE0, STATE1, STATE2 and STATE3 in that order. -/
def Obligations.BlockBytesAreTheRegisters : Prop :=
  (∀ (s : Block) (r c : Fin 4), byteAt s r c = byteOf s[c] r) ∧
  (∀ s : Block, generateState (generateOutput s) = s) ∧
  (∀ input : Fin 16 → Byte, generateOutput (generateState input) = input) ∧
  ∀ (s : Block) (input : Fin 16 → Byte) (n : Fin 16) (c r : Fin 4), n.val = r.val + 4 * c.val →
    byteAt (generateState input) r c = input n ∧ generateOutput s n = byteAt s r c ∧
    generateOutput s n = byteOf s[c] r

/-- R218, R248: once a run has ended, no host has a statement left, BUSY = 0 and, with no turn listed, a step
changes nothing; and the observable result is the values of the registers, but for RKW0..59 while
KEY_VALID = 0, of which nothing is said (R210; assumption 3). That with several hosts a run ends when all of
them have finished is the model's choice (assumption 19). -/
def Obligations.EndedRunShowsTheRegisters : Prop :=
  ∀ s : State, s.runEnded = true →
    s.busy = false ∧ (∀ h ∈ s.hosts, h.prog[h.pc]? = none) ∧ (s.turns = [] → step s = .next s) ∧
    s.observe .cmd = 0 ∧ s.observe .status = s.statusWord ∧ s.observe .opnd = s.opnd ∧
    s.observe .result = s.result ∧ (∀ c : Fin 4, s.observe (.state c) = s.block[c]) ∧
    (∀ i : Fin 8, s.observe (.key i) = s.key[i]) ∧
    (s.keyValid = true → ∀ i : Fin 60, s.observe (.rkw i) = s.sched[i])
end

