-- ==== Sys2Proof/Laws/State.lean ====
section
/-! SUPPORT. One lemma for each field of the state and each named update of it, so that no proof unfolds a
record update. -/

namespace Sys2Proof.Machine

variable (s : State)

@[simp] theorem State.issue_key (w : Word) : (s.issue w).key = s.key := rfl
@[simp] theorem State.issue_block (w : Word) : (s.issue w).block = s.block := rfl
@[simp] theorem State.issue_opnd (w : Word) : (s.issue w).opnd = s.opnd := rfl
@[simp] theorem State.issue_result (w : Word) : (s.issue w).result = s.result := rfl
@[simp] theorem State.issue_sched (w : Word) : (s.issue w).sched = s.sched := rfl
@[simp] theorem State.issue_keyValid (w : Word) : (s.issue w).keyValid = s.keyValid := rfl
@[simp] theorem State.issue_errcode (w : Word) : (s.issue w).errcode = s.errcode := rfl
@[simp] theorem State.issue_flight (w : Word) : (s.issue w).flight = some { cmd := w, snap := s.snapshot, work := s.block, stepsDone := 0 } := rfl
@[simp] theorem State.issue_hosts (w : Word) : (s.issue w).hosts = s.hosts := rfl
@[simp] theorem State.issue_turns (w : Word) : (s.issue w).turns = s.turns := rfl
@[simp] theorem State.issue_draws (w : Word) : (s.issue w).draws = s.draws := rfl

@[simp] theorem State.succeed_key : (s.succeed).key = s.key := rfl
@[simp] theorem State.succeed_block : (s.succeed).block = s.block := rfl
@[simp] theorem State.succeed_opnd : (s.succeed).opnd = s.opnd := rfl
@[simp] theorem State.succeed_result : (s.succeed).result = s.result := rfl
@[simp] theorem State.succeed_sched : (s.succeed).sched = s.sched := rfl
@[simp] theorem State.succeed_keyValid : (s.succeed).keyValid = s.keyValid := rfl
@[simp] theorem State.succeed_errcode : (s.succeed).errcode = 0 := rfl
@[simp] theorem State.succeed_flight : (s.succeed).flight = none := rfl
@[simp] theorem State.succeed_hosts : (s.succeed).hosts = s.hosts := rfl
@[simp] theorem State.succeed_turns : (s.succeed).turns = s.turns := rfl
@[simp] theorem State.succeed_draws : (s.succeed).draws = s.draws := rfl

@[simp] theorem State.raise_key (e : CmdError) : (s.raise e).key = s.key := rfl
@[simp] theorem State.raise_block (e : CmdError) : (s.raise e).block = s.block := rfl
@[simp] theorem State.raise_opnd (e : CmdError) : (s.raise e).opnd = s.opnd := rfl
@[simp] theorem State.raise_result (e : CmdError) : (s.raise e).result = s.result := rfl
@[simp] theorem State.raise_sched (e : CmdError) : (s.raise e).sched = s.sched := rfl
@[simp] theorem State.raise_keyValid (e : CmdError) : (s.raise e).keyValid = s.keyValid := rfl
@[simp] theorem State.raise_errcode (e : CmdError) : (s.raise e).errcode = e.code := rfl
@[simp] theorem State.raise_flight (e : CmdError) : (s.raise e).flight = none := rfl
@[simp] theorem State.raise_hosts (e : CmdError) : (s.raise e).hosts = s.hosts := rfl
@[simp] theorem State.raise_turns (e : CmdError) : (s.raise e).turns = s.turns := rfl
@[simp] theorem State.raise_draws (e : CmdError) : (s.raise e).draws = s.draws := rfl

@[simp] theorem State.writeResult_key (v : Word) : (s.writeResult v).key = s.key := rfl
@[simp] theorem State.writeResult_block (v : Word) : (s.writeResult v).block = s.block := rfl
@[simp] theorem State.writeResult_opnd (v : Word) : (s.writeResult v).opnd = s.opnd := rfl
@[simp] theorem State.writeResult_result (v : Word) : (s.writeResult v).result = v := rfl
@[simp] theorem State.writeResult_sched (v : Word) : (s.writeResult v).sched = s.sched := rfl
@[simp] theorem State.writeResult_keyValid (v : Word) : (s.writeResult v).keyValid = s.keyValid := rfl
@[simp] theorem State.writeResult_errcode (v : Word) : (s.writeResult v).errcode = s.errcode := rfl
@[simp] theorem State.writeResult_flight (v : Word) : (s.writeResult v).flight = s.flight := rfl
@[simp] theorem State.writeResult_hosts (v : Word) : (s.writeResult v).hosts = s.hosts := rfl
@[simp] theorem State.writeResult_turns (v : Word) : (s.writeResult v).turns = s.turns := rfl
@[simp] theorem State.writeResult_draws (v : Word) : (s.writeResult v).draws = s.draws := rfl

@[simp] theorem State.writeResultByte_key (b : Byte) : (s.writeResultByte b).key = s.key := rfl
@[simp] theorem State.writeResultByte_block (b : Byte) : (s.writeResultByte b).block = s.block := rfl
@[simp] theorem State.writeResultByte_opnd (b : Byte) : (s.writeResultByte b).opnd = s.opnd := rfl
@[simp] theorem State.writeResultByte_result (b : Byte) : (s.writeResultByte b).result = zextByte b := rfl
@[simp] theorem State.writeResultByte_sched (b : Byte) : (s.writeResultByte b).sched = s.sched := rfl
@[simp] theorem State.writeResultByte_keyValid (b : Byte) : (s.writeResultByte b).keyValid = s.keyValid := rfl
@[simp] theorem State.writeResultByte_errcode (b : Byte) : (s.writeResultByte b).errcode = s.errcode := rfl
@[simp] theorem State.writeResultByte_flight (b : Byte) : (s.writeResultByte b).flight = s.flight := rfl
@[simp] theorem State.writeResultByte_hosts (b : Byte) : (s.writeResultByte b).hosts = s.hosts := rfl
@[simp] theorem State.writeResultByte_turns (b : Byte) : (s.writeResultByte b).turns = s.turns := rfl
@[simp] theorem State.writeResultByte_draws (b : Byte) : (s.writeResultByte b).draws = s.draws := rfl

@[simp] theorem State.writeBlock_key (t : Block) : (s.writeBlock t).key = s.key := rfl
@[simp] theorem State.writeBlock_block (t : Block) : (s.writeBlock t).block = t := rfl
@[simp] theorem State.writeBlock_opnd (t : Block) : (s.writeBlock t).opnd = s.opnd := rfl
@[simp] theorem State.writeBlock_result (t : Block) : (s.writeBlock t).result = s.result := rfl
@[simp] theorem State.writeBlock_sched (t : Block) : (s.writeBlock t).sched = s.sched := rfl
@[simp] theorem State.writeBlock_keyValid (t : Block) : (s.writeBlock t).keyValid = s.keyValid := rfl
@[simp] theorem State.writeBlock_errcode (t : Block) : (s.writeBlock t).errcode = s.errcode := rfl
@[simp] theorem State.writeBlock_flight (t : Block) : (s.writeBlock t).flight = s.flight := rfl
@[simp] theorem State.writeBlock_hosts (t : Block) : (s.writeBlock t).hosts = s.hosts := rfl
@[simp] theorem State.writeBlock_turns (t : Block) : (s.writeBlock t).turns = s.turns := rfl
@[simp] theorem State.writeBlock_draws (t : Block) : (s.writeBlock t).draws = s.draws := rfl

@[simp] theorem State.writeSchedule_key (w : Schedule) : (s.writeSchedule w).key = s.key := rfl
@[simp] theorem State.writeSchedule_block (w : Schedule) : (s.writeSchedule w).block = s.block := rfl
@[simp] theorem State.writeSchedule_opnd (w : Schedule) : (s.writeSchedule w).opnd = s.opnd := rfl
@[simp] theorem State.writeSchedule_result (w : Schedule) : (s.writeSchedule w).result = s.result := rfl
@[simp] theorem State.writeSchedule_sched (w : Schedule) : (s.writeSchedule w).sched = w := rfl
@[simp] theorem State.writeSchedule_keyValid (w : Schedule) : (s.writeSchedule w).keyValid = true := rfl
@[simp] theorem State.writeSchedule_errcode (w : Schedule) : (s.writeSchedule w).errcode = s.errcode := rfl
@[simp] theorem State.writeSchedule_flight (w : Schedule) : (s.writeSchedule w).flight = s.flight := rfl
@[simp] theorem State.writeSchedule_hosts (w : Schedule) : (s.writeSchedule w).hosts = s.hosts := rfl
@[simp] theorem State.writeSchedule_turns (w : Schedule) : (s.writeSchedule w).turns = s.turns := rfl
@[simp] theorem State.writeSchedule_draws (w : Schedule) : (s.writeSchedule w).draws = s.draws := rfl

@[simp] theorem State.afterDraw_key : (s.afterDraw).key = s.key := rfl
@[simp] theorem State.afterDraw_block : (s.afterDraw).block = s.block := rfl
@[simp] theorem State.afterDraw_opnd : (s.afterDraw).opnd = s.opnd := rfl
@[simp] theorem State.afterDraw_result : (s.afterDraw).result = s.result := rfl
@[simp] theorem State.afterDraw_sched : (s.afterDraw).sched = s.sched := rfl
@[simp] theorem State.afterDraw_keyValid : (s.afterDraw).keyValid = s.keyValid := rfl
@[simp] theorem State.afterDraw_errcode : (s.afterDraw).errcode = s.errcode := rfl
@[simp] theorem State.afterDraw_flight : (s.afterDraw).flight = s.flight := rfl
@[simp] theorem State.afterDraw_hosts : (s.afterDraw).hosts = s.hosts := rfl
@[simp] theorem State.afterDraw_turns : (s.afterDraw).turns = s.turns := rfl
@[simp] theorem State.afterDraw_draws : (s.afterDraw).draws = s.draws + 1 := rfl

@[simp] theorem State.setHost_key (k : Nat) (h : HostAgent) : (s.setHost k h).key = s.key := rfl
@[simp] theorem State.setHost_block (k : Nat) (h : HostAgent) : (s.setHost k h).block = s.block := rfl
@[simp] theorem State.setHost_opnd (k : Nat) (h : HostAgent) : (s.setHost k h).opnd = s.opnd := rfl
@[simp] theorem State.setHost_result (k : Nat) (h : HostAgent) : (s.setHost k h).result = s.result := rfl
@[simp] theorem State.setHost_sched (k : Nat) (h : HostAgent) : (s.setHost k h).sched = s.sched := rfl
@[simp] theorem State.setHost_keyValid (k : Nat) (h : HostAgent) : (s.setHost k h).keyValid = s.keyValid := rfl
@[simp] theorem State.setHost_errcode (k : Nat) (h : HostAgent) : (s.setHost k h).errcode = s.errcode := rfl
@[simp] theorem State.setHost_flight (k : Nat) (h : HostAgent) : (s.setHost k h).flight = s.flight := rfl
@[simp] theorem State.setHost_hosts (k : Nat) (h : HostAgent) : (s.setHost k h).hosts = s.hosts.set k h := rfl
@[simp] theorem State.setHost_turns (k : Nat) (h : HostAgent) : (s.setHost k h).turns = s.turns := rfl
@[simp] theorem State.setHost_draws (k : Nat) (h : HostAgent) : (s.setHost k h).draws = s.draws := rfl

@[simp] theorem State.cycleOnce_key : (s.cycleOnce).key = s.key := rfl
@[simp] theorem State.cycleOnce_block : (s.cycleOnce).block = s.block := rfl
@[simp] theorem State.cycleOnce_opnd : (s.cycleOnce).opnd = s.opnd := rfl
@[simp] theorem State.cycleOnce_result : (s.cycleOnce).result = s.result := rfl
@[simp] theorem State.cycleOnce_sched : (s.cycleOnce).sched = s.sched := rfl
@[simp] theorem State.cycleOnce_keyValid : (s.cycleOnce).keyValid = s.keyValid := rfl
@[simp] theorem State.cycleOnce_errcode : (s.cycleOnce).errcode = s.errcode := rfl
@[simp] theorem State.cycleOnce_flight : (s.cycleOnce).flight = s.flight.map Flight.advance := rfl
@[simp] theorem State.cycleOnce_hosts : (s.cycleOnce).hosts = s.hosts := rfl
@[simp] theorem State.cycleOnce_turns : (s.cycleOnce).turns = s.turns := rfl
@[simp] theorem State.cycleOnce_draws : (s.cycleOnce).draws = s.draws := rfl

@[simp] theorem State.resetCore_keyValid : s.resetCore.keyValid = false := rfl
@[simp] theorem State.resetCore_errcode : s.resetCore.errcode = 0 := rfl
@[simp] theorem State.resetCore_flight : s.resetCore.flight = none := rfl
@[simp] theorem State.resetCore_hosts : s.resetCore.hosts = s.hosts := rfl
@[simp] theorem State.resetCore_turns : s.resetCore.turns = s.turns := rfl
@[simp] theorem State.resetCore_draws : s.resetCore.draws = s.draws + resetDraws := rfl

@[simp] theorem State.snapshot_key : s.snapshot.key = s.key := rfl
@[simp] theorem State.snapshot_block : s.snapshot.block = s.block := rfl
@[simp] theorem State.snapshot_opnd : s.snapshot.opnd = s.opnd := rfl
@[simp] theorem State.snapshot_sched : s.snapshot.sched = s.sched := rfl
@[simp] theorem State.snapshot_keyValid : s.snapshot.keyValid = s.keyValid := rfl

/-- With no command in flight the operands are the registers' current values. -/
theorem State.operands_of_idle {s : State} (h : s.flight = none) : s.operands = s.snapshot := by
  simp [State.operands, h]

/-- With a command in flight the operands are what it latched at issue. -/
theorem State.operands_of_flight {s : State} {f : Flight} (h : s.flight = some f) :
    s.operands = f.snap := by
  simp [State.operands, h]

@[simp] theorem State.operands_issue (w : Word) : (s.issue w).operands = s.snapshot := rfl

@[simp] theorem State.operands_withTurns (ts : List Turn) :
    ({ s with turns := ts } : State).operands = s.operands := rfl

/-- BUSY is 1 exactly when a command is in flight. -/
theorem State.busy_iff : s.busy = true ↔ ∃ f, s.flight = some f := by
  simp [State.busy, Option.isSome_iff_exists]

theorem State.busy_eq_false_iff : s.busy = false ↔ s.flight = none := by
  simp [State.busy]

@[simp] theorem State.busy_issue (w : Word) : (s.issue w).busy = true := rfl
@[simp] theorem State.busy_succeed : s.succeed.busy = false := rfl
@[simp] theorem State.busy_raise (e : CmdError) : (s.raise e).busy = false := rfl
@[simp] theorem State.busy_resetCore : s.resetCore.busy = false := rfl

@[simp] theorem State.busy_cycleOnce : s.cycleOnce.busy = s.busy := by
  simp [State.busy]

/-- A cycle of the sequencer leaves the command word and the latched operands alone. -/
@[simp] theorem Flight.advance_cmd (f : Flight) : f.advance.cmd = f.cmd := by
  unfold Flight.advance
  split
  · rfl
  · split <;> rfl

@[simp] theorem Flight.advance_snap (f : Flight) : f.advance.snap = f.snap := by
  unfold Flight.advance
  split
  · rfl
  · split <;> rfl

end Sys2Proof.Machine
end

