-- ==== Sys2Proof/Laws/Access.lean ====
section
/-! SUPPORT. The register window: the map both ways, and everything a host read or write can do, said once
(R210, R211). -/

namespace Sys2Proof.Machine

/-- Each register is found at its offset (R21). -/
@[simp] theorem regAt_off (r : Reg) : regAt r.off = some r := by
  cases r with
  | cmd => rfl
  | status => rfl
  | opnd => rfl
  | result => rfl
  | state c => revert c; decide
  | key i => revert i; decide
  | rkw i => revert i; decide

/-- Only its own offset names a register (R21). -/
theorem off_of_regAt {off : Nat} {r : Reg} (h : regAt off = some r) : r.off = off := by
  unfold regAt at h
  repeat' split at h
  all_goals cases h
  all_goals first
    | exact Eq.symm (by assumption)
    | (simp only [Reg.off]; omega)

/-- A register's offset is a multiple of 4 inside the window. -/
theorem Reg.off_aligned (r : Reg) : r.off % 4 = 0 := by
  cases r <;> simp only [Reg.off] <;> omega

theorem Reg.off_lt (r : Reg) : r.off < Config.windowSize := by
  cases r <;> simp only [Reg.off, Config.windowSize] <;> omega

@[simp] theorem accessMalformed_off (r : Reg) : accessMalformed r.off 4 = false := by
  simp [accessMalformed, r.off_aligned]

/-- A well-formed read of a register. -/
@[simp] theorem State.memRead_off (s : State) (r : Reg) : s.memRead r.off 4 = .next (s.readReg r) := by
  simp [State.memRead]

/-- A well-formed write of a register. -/
@[simp] theorem State.memWrite_off (s : State) (r : Reg) (v : Word) :
    s.memWrite r.off 4 v = s.writeReg r v := by
  simp [State.memWrite]

/-- A read of an unspecified register draws (R210). -/
theorem State.readReg_of_unspecified {s : State} {r : Reg} (h : s.unspecified r = true) :
    s.readReg r = (s.drawn, s.afterDraw) := if_pos h

/-- A read of any other register gives its value and changes nothing (R210). -/
theorem State.readReg_of_specified {s : State} {r : Reg} (h : s.unspecified r = false) :
    s.readReg r = (s.regValue r, s) := if_neg (by simp [h])

/-- A run's observable result shows the value of every register that is not unspecified (R218). -/
theorem State.observe_of_specified {s : State} {r : Reg} (h : s.unspecified r = false) :
    s.observe r = s.regValue r := if_neg (by simp [h])

/-- A read leaves the state as it is, but for the counter of draws (R210, R66). -/
theorem State.readReg_state (r : Reg) (s : State) :
    (s.readReg r).2 = s ∨ (s.readReg r).2 = s.afterDraw := by
  unfold State.readReg
  split
  · exact .inr rfl
  · exact .inl rfl

/-- What a host read can answer. -/
theorem State.memRead_cases (off width : Nat) (s : State) :
    (accessMalformed off width = true ∧ s.memRead off width = .fault .badAccess) ∨
      (accessMalformed off width = false ∧
        ∃ v s', s.memRead off width = .next (v, s') ∧ (s' = s ∨ s' = s.afterDraw)) := by
  cases hm : accessMalformed off width with
  | true => exact .inl ⟨rfl, by simp [State.memRead, hm]⟩
  | false =>
    refine .inr ⟨rfl, ?_⟩
    cases hr : regAt off with
    | none => exact ⟨0, s, by simp [State.memRead, hm, hr], .inl rfl⟩
    | some r => exact ⟨_, _, by simp [State.memRead, hm, hr]; rfl, s.readReg_state r⟩

/-- The effects a host write can have (R211): none; or, with BUSY = 0, a command issued or one register
stored. -/
inductive WriteEffect (off : Nat) (v : Word) (s : State) : State → Prop
  | ignored : WriteEffect off v s s
  | issued (h : s.flight = none) : WriteEffect off v s (s.issue v)
  | key (h : s.flight = none) (i : Fin 8) (ho : off = 0x020 + 4 * i.val) :
    WriteEffect off v s { s with key := s.key.set i.val v }
  | block (h : s.flight = none) (c : Fin 4) : WriteEffect off v s { s with block := s.block.set c.val v }
  | opnd (h : s.flight = none) : WriteEffect off v s { s with opnd := v }

/-- The offsets whose writes BUSY forbids: CMD, OPND, STATE0..3 and KEY0..7 (R273). -/
def BusyGuarded (off : Nat) : Prop :=
  off = 0x000 ∨ off = 0x008 ∨ (∃ c : Fin 4, off = 0x010 + 4 * c.val) ∨ ∃ i : Fin 8, off = 0x020 + 4 * i.val

/-- What a host write can answer. -/
theorem State.memWrite_cases (off width : Nat) (v : Word) (s : State) :
    (accessMalformed off width = true ∧ s.memWrite off width v = .fault .badAccess) ∨
      (accessMalformed off width = false ∧ (s.busy = true ∧ BusyGuarded off) ∧
        s.memWrite off width v = .fault .hostWriteWhileBusy) ∨
      (accessMalformed off width = false ∧
        ∃ s', s.memWrite off width v = .next s' ∧ WriteEffect off v s s') := by
  cases hm : accessMalformed off width with
  | true => exact .inl ⟨rfl, by simp [State.memWrite, hm]⟩
  | false =>
    refine .inr ?_
    cases hr : regAt off with
    | none => exact .inr ⟨rfl, s, by simp [State.memWrite, hm, hr], .ignored⟩
    | some r =>
      have hw : s.memWrite off width v = s.writeReg r v := by simp [State.memWrite, hm, hr]
      have ho := off_of_regAt hr
      rw [hw]
      cases hb : s.busy with
      | true =>
        cases r with
        | status => exact .inr ⟨rfl, s, rfl, .ignored⟩
        | result => exact .inr ⟨rfl, s, rfl, .ignored⟩
        | rkw i => exact .inr ⟨rfl, s, rfl, .ignored⟩
        | cmd => exact .inl ⟨rfl, ⟨rfl, .inl ho.symm⟩, by simp [State.writeReg, State.unlessBusy, hb]⟩
        | opnd => exact .inl ⟨rfl, ⟨rfl, .inr (.inl ho.symm)⟩, by simp [State.writeReg, State.unlessBusy, hb]⟩
        | state c => exact .inl ⟨rfl, ⟨rfl, .inr (.inr (.inl ⟨c, ho.symm⟩))⟩, by simp [State.writeReg, State.unlessBusy, hb]⟩
        | key i => exact .inl ⟨rfl, ⟨rfl, .inr (.inr (.inr ⟨i, ho.symm⟩))⟩, by simp [State.writeReg, State.unlessBusy, hb]⟩
      | false =>
        have hf := (State.busy_eq_false_iff s).mp hb
        refine .inr ⟨rfl, ?_⟩
        cases r with
        | status => exact ⟨s, rfl, .ignored⟩
        | result => exact ⟨s, rfl, .ignored⟩
        | rkw i => exact ⟨s, rfl, .ignored⟩
        | cmd => exact ⟨_, by simp [State.writeReg, State.unlessBusy, hb], .issued hf⟩
        | opnd => exact ⟨_, by simp [State.writeReg, State.unlessBusy, hb], .opnd hf⟩
        | state c => exact ⟨_, by simp [State.writeReg, State.unlessBusy, hb], .block hf c⟩
        | key i => exact ⟨_, by simp [State.writeReg, State.unlessBusy, hb], .key hf i ho.symm⟩

end Sys2Proof.Machine
end

