-- ==== Sys2Proof/Laws/Bytes.lean ====
section
/-! SUPPORT. Bytes of words and of blocks: reading back what `wordOf` and `blockOf` put together, and
equality of words and blocks byte by byte. -/

namespace Sys2Proof.Machine

section
variable (b0 b1 b2 b3 : Byte)

@[simp] theorem byteOf_wordOf_zero : byteOf (wordOf b0 b1 b2 b3) 0 = b0 := by
  apply BitVec.eq_of_getLsbD_eq
  intro i hi
  have h1 : ¬ 24 + i < 8 := by omega
  have h2 : ¬ 24 + i - 8 < 8 := by omega
  have h3 : ¬ 24 + i - 8 - 8 < 8 := by omega
  have h4 : 24 + i - 8 - 8 - 8 = i := by omega
  simp only [byteOf, wordOf, BitVec.getLsbD_extractLsb', BitVec.getLsbD_append]
  simp [hi, h1, h2, h3, h4, -BitVec.getLsbD_eq_getElem]

@[simp] theorem byteOf_wordOf_one : byteOf (wordOf b0 b1 b2 b3) 1 = b1 := by
  apply BitVec.eq_of_getLsbD_eq
  intro i hi
  have h1 : ¬ 16 + i < 8 := by omega
  have h2 : ¬ 16 + i - 8 < 8 := by omega
  have h3 : 16 + i - 8 - 8 < 8 := by omega
  have h4 : 16 + i - 8 - 8 = i := by omega
  simp only [byteOf, wordOf, BitVec.getLsbD_extractLsb', BitVec.getLsbD_append]
  simp [hi, h1, h2, h4, -BitVec.getLsbD_eq_getElem]

@[simp] theorem byteOf_wordOf_two : byteOf (wordOf b0 b1 b2 b3) 2 = b2 := by
  apply BitVec.eq_of_getLsbD_eq
  intro i hi
  have h1 : ¬ 8 + i < 8 := by omega
  have h2 : 8 + i - 8 < 8 := by omega
  have h3 : 8 + i - 8 = i := by omega
  simp only [byteOf, wordOf, BitVec.getLsbD_extractLsb', BitVec.getLsbD_append]
  simp [hi, -BitVec.getLsbD_eq_getElem]

@[simp] theorem byteOf_wordOf_three : byteOf (wordOf b0 b1 b2 b3) 3 = b3 := by
  apply BitVec.eq_of_getLsbD_eq
  intro i hi
  simp only [byteOf, wordOf, BitVec.getLsbD_extractLsb', BitVec.getLsbD_append]
  simp [hi, -BitVec.getLsbD_eq_getElem]

end

/-- A word is its four bytes. -/
theorem word_ext {v w : Word} (h : ∀ j, byteOf v j = byteOf w j) : v = w := by
  apply BitVec.eq_of_getLsbD_eq
  intro i hi
  have hj := congrArg (fun b : Byte => b.getLsbD (i % 8)) (h ⟨3 - i / 8, by omega⟩)
  have h1 : 24 - 8 * (3 - i / 8) + i % 8 = i := by omega
  have h2 : i % 8 < 8 := by omega
  simpa [byteOf, BitVec.getLsbD_extractLsb', h1, h2] using hj

/-- Byte j of an exclusive-or is the exclusive-or of the bytes j. -/
@[simp] theorem byteOf_xor (v w : Word) (j : Fin 4) : byteOf (v ^^^ w) j = byteOf v j ^^^ byteOf w j := by
  apply BitVec.eq_of_getLsbD_eq
  intro i hi
  simp [byteOf, hi]

/-- The matrix read back from the registers that hold it (R24). -/
@[simp] theorem byteAt_blockOf (t : Fin 4 → Fin 4 → Byte) (r c : Fin 4) : byteAt (blockOf t) r c = t r c := by
  fin_cases c <;> fin_cases r <;> simp [byteAt, blockOf]

/-- A block is its sixteen bytes. -/
theorem block_ext {a b : Block} (h : ∀ r c, byteAt a r c = byteAt b r c) : a = b := by
  apply Vector.ext
  intro c hc
  exact word_ext fun r => h r ⟨c, hc⟩

/-- The registers that hold the matrix read from a block are the block. -/
@[simp] theorem blockOf_byteAt (s : Block) : blockOf (fun r c => byteAt s r c) = s :=
  block_ext fun r c => by simp

end Sys2Proof.Machine
end

