-- ==== Sys2Proof/Laws/Engine.lean ====
section
/-! SUPPORT. The hidden datapath of a command in flight: what one cycle does (R40, R196), that it stops after
15 AddRoundKey steps, that it stays on its course, and that 15 of its steps are the whole Cipher or
InvCipher. -/

namespace Sys2Proof.Machine

/-- The datapath has a next step only while fewer than 15 AddRoundKey steps are done. -/
theorem roundStep_some {i : Instr} {snap : Snapshot} {k : Nat} {w b : Block}
    (h : roundStep i snap k w = some b) : k < 15 := by
  cases i <;> simp only [roundStep] at h <;> (try split at h) <;> simp_all

/-- A cycle in which the datapath takes its next step. -/
theorem Flight.advance_some {f : Flight} {i : Instr} {b : Block} (hd : decode f.cmd = .ok i)
    (hr : roundStep i f.snap f.stepsDone f.work = some b) :
    f.advance = { f with work := b, stepsDone := f.stepsDone + 1 } := by
  simp [Flight.advance, hd, hr]

/-- A cycle in which the datapath has no next step. -/
theorem Flight.advance_none {f : Flight} {i : Instr} (hd : decode f.cmd = .ok i)
    (hr : roundStep i f.snap f.stepsDone f.work = none) : f.advance = f := by
  simp [Flight.advance, hd, hr]

/-- A cycle keeps the datapath on its course. -/
theorem Flight.advance_onCourse (f : Flight) (h : f.OnCourse) : f.advance.OnCourse := by
  obtain ⟨h1, h2⟩ := h
  cases hd : decode f.cmd with
  | error e => simpa [Flight.advance, hd, Flight.OnCourse] using And.intro h1 (by simpa [hd] using h2)
  | ok i =>
    simp only [hd] at h2
    cases hr : roundStep i f.snap f.stepsDone f.work with
    | none =>
      rw [Flight.advance_none hd hr]
      exact ⟨h1, by simpa [hd] using h2⟩
    | some b =>
      rw [Flight.advance_some hd hr]
      refine ⟨roundStep_some hr, ?_⟩
      simp only [hd, workAfter, ← h2, hr, Option.getD_some]

/-- The first n ≤ 15 cycles of a command with rounds, when each of its steps is `st`. -/
theorem Flight.repeat_advance {f : Flight} {i : Instr} (hd : decode f.cmd = .ok i) (st : Nat → Block → Block)
    (hr : ∀ k w, k < 15 → roundStep i f.snap k w = some (st k w)) (h0 : f.stepsDone = 0) (n : Nat)
    (hn : n ≤ 15) :
    Nat.repeat Flight.advance n f = { f with work := Nat.rec f.work (fun k w => st k w) n, stepsDone := n } := by
  induction n with
  | zero => cases f; simp_all [Nat.repeat]
  | succ n ih =>
    rw [Nat.repeat, ih (by omega)]
    exact Flight.advance_some (i := i) hd (hr n _ (by omega))

/-- The 15 encryption steps are Cipher. -/
theorem encSteps_eq_cipher (w : Schedule) (b : Block) :
    (Nat.rec b (fun k x => encStep w k x) 15 : Block) = cipher w b := rfl

/-- The 15 decryption steps are InvCipher. -/
theorem decSteps_eq_invCipher (w : Schedule) (b : Block) :
    (Nat.rec b (fun k x => decStep w k x) 15 : Block) = invCipher w b := rfl

end Sys2Proof.Machine
end

