-- ==== Sys2Proof/Laws/Exec.lean ====
section
/-! SUPPORT. Everything a command's completion can do, said once (R215, R232). -/

namespace Sys2Proof.Machine

/-- The five ways a command completes: with an error of its own, writing RESULT, writing STATE0..3, writing
the whole schedule, or, for NOP, writing nothing. -/
inductive Completion (i : Instr) (s : State) : State → Prop
  | error (e : CmdError) (he : e ≠ .illegalCommand) : Completion i s (s.raise e)
  | result (v : Word) (hi : i.isScalar = true) : Completion i s (s.writeResult v).succeed
  | block (b : Block) (hi : i.isStateCommand = true) : Completion i s (s.writeBlock b).succeed
  | schedule (hi : i = .keyExpand 32) :
    Completion i s (s.writeSchedule (keyExpansion s.operands.key)).succeed
  | nothing (hi : i = .nop) : Completion i s s.succeed

/-- A command that checks its fields and the key before it writes the State: one of the two errors, or the
new State. -/
theorem completion_of_checks {i : Instr} {s : State} {bad noKey : Prop} [Decidable bad] [Decidable noKey]
    {e : CmdError} {b : Block} (he : e ≠ .illegalCommand) (hi : i.isStateCommand = true) :
    ∃ t, (if bad then .next (s.raise e) else if noKey then .next (s.raise .noKeySchedule)
        else .next (s.writeBlock b).succeed : Host.Outcome State Fault Refusal) = .next t ∧
      Completion i s t := by
  by_cases hb : bad
  · exact ⟨_, if_pos hb, .error e he⟩
  · by_cases hk : noKey
    · exact ⟨_, by rw [if_neg hb, if_pos hk], .error .noKeySchedule (by decide)⟩
    · exact ⟨_, by rw [if_neg hb, if_neg hk], .block b hi⟩

/-- Every command completes, in one of the five ways. -/
theorem exec_completes (i : Instr) (s : State) : ∃ t, exec i s = .next t ∧ Completion i s t := by
  cases i with
  | nop => exact ⟨_, rfl, .nothing rfl⟩
  | gfMul => exact ⟨_, rfl, .result _ rfl⟩
  | gfAdd => exact ⟨_, rfl, .result _ rfl⟩
  | rotWord => exact ⟨_, rfl, .result _ rfl⟩
  | subWord => exact ⟨_, rfl, .result _ rfl⟩
  | rcon => exact ⟨_, rfl, .result _ rfl⟩
  | sbox => exact ⟨_, rfl, .result _ rfl⟩
  | invSbox => exact ⟨_, rfl, .result _ rfl⟩
  | subBytes => exact ⟨_, rfl, .block _ rfl⟩
  | invSubBytes => exact ⟨_, rfl, .block _ rfl⟩
  | shiftRows => exact ⟨_, rfl, .block _ rfl⟩
  | invShiftRows => exact ⟨_, rfl, .block _ rfl⟩
  | mixColumns => exact ⟨_, rfl, .block _ rfl⟩
  | invMixColumns => exact ⟨_, rfl, .block _ rfl⟩
  | keyExpand len =>
    by_cases h : len = 32
    · subst h
      exact ⟨_, rfl, .schedule rfl⟩
    · exact ⟨_, if_pos h, .error .invalidKeyLength (by decide)⟩
  | addRoundKey rnd => exact completion_of_checks (by decide) rfl
  | addRoundKeyImc rnd => exact completion_of_checks (by decide) rfl
  | encrypt len => exact completion_of_checks (by decide) rfl
  | decrypt len => exact completion_of_checks (by decide) rfl

/-- What a command's next state is: one of the five completions. -/
theorem exec_inversion {i : Instr} {s t : State} (h : exec i s = .next t) : Completion i s t := by
  obtain ⟨t', h', hc⟩ := exec_completes i s
  cases h.symm.trans h'
  exact hc

/-- A command never stops the run. -/
theorem exec_never_faults (i : Instr) (s : State) (r : Fault) : exec i s ≠ .fault r := by
  obtain ⟨t, h, -⟩ := exec_completes i s
  simp [h]

theorem exec_never_refuses (i : Instr) (s : State) (r : Refusal) : exec i s ≠ .refused r := by
  obtain ⟨t, h, -⟩ := exec_completes i s
  simp [h]

/-- A completion clears BUSY and leaves alone what no command writes. -/
theorem Completion.frame {i : Instr} {s t : State} (h : Completion i s t) :
    t.flight = none ∧ t.key = s.key ∧ t.opnd = s.opnd ∧ t.hosts = s.hosts ∧ t.turns = s.turns ∧
      t.draws = s.draws := by
  cases h <;> simp

/-- What a command does to the core, as data: the five kinds of completion. -/
inductive Effect where
  | error (e : CmdError)
  | result (v : Word)
  | block (b : Block)
  | schedule (w : Schedule)
  | nothing

/-- The state after an effect. -/
def Effect.apply : Effect → State → State
  | .error e, s => s.raise e
  | .result v, s => (s.writeResult v).succeed
  | .block b, s => (s.writeBlock b).succeed
  | .schedule w, s => (s.writeSchedule w).succeed
  | .nothing, s => s.succeed

/-- What a command does is fixed by the command and the operands it reads (R215: "The command's pseudocode
reads only the snapshot"). -/
theorem exec_effect (i : Instr) (o : Snapshot) :
    ∃ e : Effect, ∀ s : State, s.operands = o → exec i s = .next (e.apply s) := by
  have checks (bad noKey : Prop) [Decidable bad] [Decidable noKey] (e : CmdError) (b : Block) :
      ∃ x : Effect, ∀ s : State, (if bad then .next (s.raise e) else if noKey then .next (s.raise .noKeySchedule)
        else .next (s.writeBlock b).succeed : Host.Outcome State Fault Refusal) = .next (x.apply s) := by
    by_cases hb : bad
    · exact ⟨.error e, fun s => if_pos hb⟩
    · by_cases hk : noKey
      · exact ⟨.error .noKeySchedule, fun s => by rw [if_neg hb, if_pos hk]; rfl⟩
      · exact ⟨.block b, fun s => by rw [if_neg hb, if_neg hk]; rfl⟩
  cases i with
  | nop => exact ⟨.nothing, fun s _ => rfl⟩
  | gfMul => exact ⟨.result (zextByte (gmul (opndLow o.opnd) (opndHigh o.opnd))), fun s h => by subst h; rfl⟩
  | gfAdd => exact ⟨.result (zextByte (gadd (opndBytes o.opnd))), fun s h => by subst h; rfl⟩
  | rotWord => exact ⟨.result (rotWord o.opnd), fun s h => by subst h; rfl⟩
  | subWord => exact ⟨.result (subWord o.opnd), fun s h => by subst h; rfl⟩
  | rcon => exact ⟨.result (zextByte (rconRom (opndLow o.opnd))), fun s h => by subst h; rfl⟩
  | sbox => exact ⟨.result (zextByte (sboxRom (opndLow o.opnd))), fun s h => by subst h; rfl⟩
  | invSbox => exact ⟨.result (zextByte (invSboxRom (opndLow o.opnd))), fun s h => by subst h; rfl⟩
  | subBytes => exact ⟨.block (subBytes o.block false), fun s h => by subst h; rfl⟩
  | invSubBytes => exact ⟨.block (subBytes o.block true), fun s h => by subst h; rfl⟩
  | shiftRows => exact ⟨.block (shiftRows o.block false), fun s h => by subst h; rfl⟩
  | invShiftRows => exact ⟨.block (shiftRows o.block true), fun s h => by subst h; rfl⟩
  | mixColumns => exact ⟨.block (mixColumns o.block false), fun s h => by subst h; rfl⟩
  | invMixColumns => exact ⟨.block (mixColumns o.block true), fun s h => by subst h; rfl⟩
  | keyExpand len =>
    by_cases h : len = 32
    · exact ⟨.schedule (keyExpansion o.key), fun s ho => by subst ho; exact if_neg (not_not.2 h)⟩
    · exact ⟨.error .invalidKeyLength, fun s _ => if_pos h⟩
  | addRoundKey rnd =>
    obtain ⟨x, hx⟩ := checks (14 < rnd) (o.keyValid = false) .invalidRound
      (addRoundKey o.block (roundKey o.sched rnd))
    exact ⟨x, fun s h => by subst h; exact hx s⟩
  | addRoundKeyImc rnd =>
    obtain ⟨x, hx⟩ := checks (14 < rnd) (o.keyValid = false) .invalidRound
      (addRoundKey o.block (mixColumns (roundKey o.sched rnd) true))
    exact ⟨x, fun s h => by subst h; exact hx s⟩
  | encrypt len =>
    obtain ⟨x, hx⟩ := checks (len ≠ 16) (o.keyValid = false) .invalidBlockLength (cipher o.sched o.block)
    exact ⟨x, fun s h => by subst h; exact hx s⟩
  | decrypt len =>
    obtain ⟨x, hx⟩ := checks (len ≠ 16) (o.keyValid = false) .invalidBlockLength (invCipher o.sched o.block)
    exact ⟨x, fun s h => by subst h; exact hx s⟩

end Sys2Proof.Machine
end

