-- ==== Sys2Proof/Laws/Field.lean ====
section
/-! SUPPORT. GF(2^8) arithmetic: `xtime` and `gmul` are linear over XOR in each operand, and `gadd` is XOR. -/

namespace Sys2Proof.Machine

/-- Doubling is linear over XOR. -/
theorem xtime_xor (a b : Byte) : xtime (a ^^^ b) = xtime a ^^^ xtime b := by
  apply BitVec.eq_of_getLsbD_eq
  intro i hi
  simp only [xtime, BitVec.getLsbD_xor]
  cases ha : a.getLsbD 7 <;> cases hb : b.getLsbD 7 <;>
    simp [Bool.xor_left_comm, Bool.xor_comm, Bool.and_xor_distrib_left]

/-- The running product is only added to. -/
theorem gmulLoop_acc (n : Nat) (a b p q : Byte) : gmulLoop n a b (p ^^^ q) = p ^^^ gmulLoop n a b q := by
  induction n generalizing a b q with
  | zero => rfl
  | succ n ih =>
    by_cases h : b.getLsbD 0 = true
    · simp only [gmulLoop, if_pos h, BitVec.xor_assoc, ih]
    · simp only [gmulLoop, if_neg h, ih]

/-- One round of the loop, the running product in front. -/
theorem gmulLoop_succ (n : Nat) (a b : Byte) :
    gmulLoop (n + 1) a b 0#8 = (if b.getLsbD 0 then a else 0#8) ^^^ gmulLoop n (xtime a) (b >>> 1) 0#8 := by
  rw [← gmulLoop_acc, BitVec.xor_zero, gmulLoop, BitVec.zero_xor]

/-- The product is linear over XOR in its first operand. -/
theorem gmulLoop_xor_left (n : Nat) (a a' b : Byte) :
    gmulLoop n (a ^^^ a') b 0#8 = gmulLoop n a b 0#8 ^^^ gmulLoop n a' b 0#8 := by
  induction n generalizing a a' b with
  | zero => exact BitVec.zero_xor.symm
  | succ n ih =>
    simp only [gmulLoop_succ, xtime_xor, ih]
    split
    · ac_rfl
    · simp only [BitVec.zero_xor]

/-- The product is linear over XOR in its second operand. -/
theorem gmulLoop_xor_right (n : Nat) (a b b' : Byte) :
    gmulLoop n a (b ^^^ b') 0#8 = gmulLoop n a b 0#8 ^^^ gmulLoop n a b' 0#8 := by
  induction n generalizing a b b' with
  | zero => exact BitVec.zero_xor.symm
  | succ n ih =>
    have hs : (b ^^^ b') >>> 1 = (b >>> 1) ^^^ (b' >>> 1) := BitVec.ushiftRight_xor_distrib b b' 1
    have hif : (if (b ^^^ b').getLsbD 0 then a else 0#8)
        = (if b.getLsbD 0 then a else 0#8) ^^^ (if b'.getLsbD 0 then a else 0#8) := by
      rw [BitVec.getLsbD_xor]
      cases b.getLsbD 0 <;> cases b'.getLsbD 0 <;> simp
    rw [gmulLoop_succ, gmulLoop_succ, gmulLoop_succ, hs, ih, hif]
    ac_rfl

theorem gmul_xor_left (a a' b : Byte) : gmul (a ^^^ a') b = gmul a b ^^^ gmul a' b :=
  gmulLoop_xor_left 8 a a' b

theorem gmul_xor_right (a b b' : Byte) : gmul a (b ^^^ b') = gmul a b ^^^ gmul a b' :=
  gmulLoop_xor_right 8 a b b'

/-- Folding XOR from a start value adds the start value to the sum from 0x00. -/
theorem gadd_foldl (bs : List Byte) (p : Byte) : bs.foldl (fun p b => p ^^^ b) p = p ^^^ gadd bs := by
  induction bs generalizing p with
  | nil => exact BitVec.xor_zero.symm
  | cons b bs ih =>
    have h0 : gadd (b :: bs) = bs.foldl (fun p b => p ^^^ b) (0#8 ^^^ b) := rfl
    rw [h0, List.foldl_cons, ih, ih, BitVec.zero_xor, BitVec.xor_assoc]

@[simp] theorem gadd_nil : gadd [] = 0#8 := rfl

@[simp] theorem gadd_cons (b : Byte) (bs : List Byte) : gadd (b :: bs) = b ^^^ gadd bs := by
  have h0 : gadd (b :: bs) = bs.foldl (fun p b => p ^^^ b) (0#8 ^^^ b) := rfl
  rw [h0, gadd_foldl, BitVec.zero_xor]

end Sys2Proof.Machine
end

