-- ==== Sys2Proof/Laws/PerInstr.lean ====
section
/-! SUPPORT. A statement made of every command as syntax, proved command by command: the fields of its word
(R80, R81, R84). -/

namespace Sys2Proof.Laws

/-- An appended bit vector's value. -/
theorem toNat_append_eq {m n : Nat} (x : BitVec m) (y : BitVec n) :
    (x ++ y).toNat = x.toNat * 2 ^ n + y.toNat := by
  rw [BitVec.toNat_append, ← Nat.shiftLeft_add_eq_or_of_lt y.isLt, Nat.shiftLeft_eq]

/-- The five fields of an encoded word, read back. -/
theorem fields_of_encodeFields (op : Byte) (rnd len : Nat) (hr : rnd < 16) (hl : len < 256) :
    fieldOp (encodeFields op rnd len) = op ∧ fieldRnd (encodeFields op rnd len) = rnd ∧
      fieldRsv0 (encodeFields op rnd len) = 0 ∧ fieldLen (encodeFields op rnd len) = len ∧
      fieldRsv1 (encodeFields op rnd len) = 0 := by
  have hop := op.isLt
  have h : (encodeFields op rnd len).toNat = len * 2 ^ 16 + rnd * 2 ^ 8 + op.toNat := by
    unfold encodeFields
    have z8 : (0 : BitVec 8).toNat = 0 := rfl
    have z4 : (0 : BitVec 4).toNat = 0 := rfl
    simp only [toNat_append_eq, BitVec.toNat_ofNat, z8, z4]
    omega
  refine ⟨BitVec.eq_of_toNat_eq ?_, ?_, ?_, ?_, ?_⟩ <;>
    simp only [fieldOp, fieldRnd, fieldRsv0, fieldLen, fieldRsv1, BitVec.extractLsb'_toNat, h,
      Nat.shiftRight_eq_div_pow] <;> omega

end Sys2Proof.Laws

namespace Sys2Proof.Laws.EncodeFields

/-- The word of a well-formed command carries its OP, RND and LEN in their fields, and 0 in the reserved
fields. -/
def Statement (i : Instr) : Prop :=
  i.wellFormed = true →
    fieldOp (encode i) = i.op ∧ fieldRnd (encode i) = i.rnd ∧ fieldRsv0 (encode i) = 0 ∧
      fieldLen (encode i) = i.len ∧ fieldRsv1 (encode i) = 0

theorem nop : Statement .nop := fun _ =>
  fields_of_encodeFields _ 0 0 (by decide) (by decide)

theorem gfMul : Statement .gfMul := fun _ =>
  fields_of_encodeFields _ 0 0 (by decide) (by decide)

theorem gfAdd : Statement .gfAdd := fun _ =>
  fields_of_encodeFields _ 0 0 (by decide) (by decide)

theorem rotWord : Statement .rotWord := fun _ =>
  fields_of_encodeFields _ 0 0 (by decide) (by decide)

theorem subWord : Statement .subWord := fun _ =>
  fields_of_encodeFields _ 0 0 (by decide) (by decide)

theorem rcon : Statement .rcon := fun _ =>
  fields_of_encodeFields _ 0 0 (by decide) (by decide)

theorem keyExpand (len : Nat) : Statement (.keyExpand len) := fun h =>
  fields_of_encodeFields _ 0 len (by decide) (by simpa [Instr.wellFormed, lenFits] using h)

theorem sbox : Statement .sbox := fun _ =>
  fields_of_encodeFields _ 0 0 (by decide) (by decide)

theorem invSbox : Statement .invSbox := fun _ =>
  fields_of_encodeFields _ 0 0 (by decide) (by decide)

theorem subBytes : Statement .subBytes := fun _ =>
  fields_of_encodeFields _ 0 0 (by decide) (by decide)

theorem invSubBytes : Statement .invSubBytes := fun _ =>
  fields_of_encodeFields _ 0 0 (by decide) (by decide)

theorem shiftRows : Statement .shiftRows := fun _ =>
  fields_of_encodeFields _ 0 0 (by decide) (by decide)

theorem invShiftRows : Statement .invShiftRows := fun _ =>
  fields_of_encodeFields _ 0 0 (by decide) (by decide)

theorem mixColumns : Statement .mixColumns := fun _ =>
  fields_of_encodeFields _ 0 0 (by decide) (by decide)

theorem invMixColumns : Statement .invMixColumns := fun _ =>
  fields_of_encodeFields _ 0 0 (by decide) (by decide)

theorem addRoundKey (rnd : Nat) : Statement (.addRoundKey rnd) := fun h =>
  fields_of_encodeFields _ rnd 0 (by simpa [Instr.wellFormed, rndFits] using h) (by decide)

theorem addRoundKeyImc (rnd : Nat) : Statement (.addRoundKeyImc rnd) := fun h =>
  fields_of_encodeFields _ rnd 0 (by simpa [Instr.wellFormed, rndFits] using h) (by decide)

theorem encrypt (len : Nat) : Statement (.encrypt len) := fun h =>
  fields_of_encodeFields _ 0 len (by decide) (by simpa [Instr.wellFormed, lenFits] using h)

theorem decrypt (len : Nat) : Statement (.decrypt len) := fun h =>
  fields_of_encodeFields _ 0 len (by decide) (by simpa [Instr.wellFormed, lenFits] using h)

end Sys2Proof.Laws.EncodeFields
end

