-- ==== Sys2Proof/Laws/Vars.lean ====
section
/-! SUPPORT. Host variables: reading back what was assigned, and that assignments keep the canonical form. -/

namespace Sys2Proof.Machine

theorem varsWf_nil : varsWf [] = true := by decide

/-- The canonical form, entry by entry. -/
theorem varsWf_cons {k : Nat} {w : Word} {vs : HostVars} :
    varsWf ((k, w) :: vs) = true ↔ (∀ e ∈ vs, k < e.1) ∧ w ≠ 0 ∧ varsWf vs = true := by
  simp only [varsWf, List.map_cons, List.pairwise_cons, List.mem_map, List.all_cons, Bool.and_eq_true,
    decide_eq_true_eq, bne_iff_ne, ne_eq, List.all_eq_true]
  constructor
  · rintro ⟨⟨h1, h2⟩, h3, h4⟩
    exact ⟨fun e he => h1 e.1 ⟨e, he, rfl⟩, h3, h2, h4⟩
  · rintro ⟨h1, h3, h2, h4⟩
    refine ⟨⟨?_, h2⟩, h3, h4⟩
    rintro _ ⟨e, he, rfl⟩
    exact h1 e he

/-- A variable below every listed one reads 0. -/
theorem varsGet_of_lt {vs : HostVars} {t : Nat} (h : ∀ e ∈ vs, t < e.1) : varsGet vs t = 0 := by
  induction vs with
  | nil => rfl
  | cons e rest ih =>
    have he : t ≠ e.1 := (h e (by simp)).ne
    simp only [varsGet, he, if_false]
    exact ih fun x hx => h x (by simp [hx])

/-- The keys an assignment lists are the old ones and the assigned one. -/
theorem mem_varsSet {vs : HostVars} {t : Nat} {v : Word} {e : Nat × Word} (h : e ∈ varsSet vs t v) :
    e = (t, v) ∨ e ∈ vs := by
  induction vs with
  | nil =>
    unfold varsSet at h
    split at h <;> simp_all
  | cons x rest ih =>
    obtain ⟨k, w⟩ := x
    unfold varsSet at h
    split at h
    · split at h
      · exact .inr h
      · rcases List.mem_cons.mp h with h | h
        · exact .inl h
        · exact .inr h
    · split at h
      · split at h
        · exact .inr (List.mem_cons_of_mem _ h)
        · rcases List.mem_cons.mp h with h | h
          · exact .inl h
          · exact .inr (List.mem_cons_of_mem _ h)
      · rcases List.mem_cons.mp h with h | h
        · exact .inr (by simp [h])
        · exact (ih h).imp id (List.mem_cons_of_mem _)

/-- Assignments keep the canonical form. -/
theorem varsSet_wf {vs : HostVars} (t : Nat) (v : Word) (h : varsWf vs = true) :
    varsWf (varsSet vs t v) = true := by
  induction vs with
  | nil =>
    unfold varsSet
    split
    · exact varsWf_nil
    · exact varsWf_cons.mpr ⟨by simp, by assumption, varsWf_nil⟩
  | cons x rest ih =>
    obtain ⟨k, w⟩ := x
    obtain ⟨hk, hw, hr⟩ := varsWf_cons.mp h
    unfold varsSet
    split
    · rename_i htk
      split
      · exact h
      · refine varsWf_cons.mpr ⟨?_, by assumption, h⟩
        intro e he
        rcases List.mem_cons.mp he with rfl | he
        · exact htk
        · exact htk.trans (hk e he)
    · split
      · rename_i htk
        subst htk
        split
        · exact hr
        · exact varsWf_cons.mpr ⟨hk, by assumption, hr⟩
      · refine varsWf_cons.mpr ⟨?_, hw, ih hr⟩
        intro e he
        rcases mem_varsSet he with rfl | he
        · show k < t
          omega
        · exact hk e he

/-- Reading the variable just assigned. -/
theorem varsGet_varsSet_self {vs : HostVars} (t : Nat) (v : Word) (h : varsWf vs = true) :
    varsGet (varsSet vs t v) t = v := by
  induction vs with
  | nil =>
    unfold varsSet
    split <;> simp_all [varsGet]
  | cons x rest ih =>
    obtain ⟨k, w⟩ := x
    obtain ⟨hk, hw, hr⟩ := varsWf_cons.mp h
    unfold varsSet
    split
    · rename_i htk
      split
      · rename_i hv
        subst hv
        refine varsGet_of_lt fun e he => ?_
        rcases List.mem_cons.mp he with rfl | he
        · exact htk
        · exact htk.trans (hk e he)
      · simp [varsGet]
    · split
      · rename_i htk
        subst htk
        split
        · rename_i hv
          subst hv
          exact varsGet_of_lt hk
        · simp [varsGet]
      · rename_i h1 h2
        simp only [varsGet, h2, if_false]
        exact ih hr

/-- Reading another variable. -/
theorem varsGet_varsSet_ne {vs : HostVars} {t u : Nat} (v : Word) (h : u ≠ t) :
    varsGet (varsSet vs t v) u = varsGet vs u := by
  induction vs with
  | nil =>
    unfold varsSet
    split <;> simp [varsGet, h]
  | cons x rest ih =>
    obtain ⟨k, w⟩ := x
    unfold varsSet
    split
    · split <;> simp [varsGet, h]
    · split
      · rename_i htk
        subst htk
        split <;> simp [varsGet, h]
      · simp [varsGet, ih]

end Sys2Proof.Machine
end

