-- ==== Sys2Proof/Laws/Step.lean ====
section
/-! SUPPORT. Everything one step can do, said once: the effect of a host's statement, of the sequencer, of a
reset, or nothing. -/

namespace Sys2Proof.Machine

/-- The effects of host k's statement `st` (R88). -/
inductive HostEffect (k : Nat) (h : HostAgent) (st : HostStmt) (s : State) : State → Prop
  /-- Control flow and host-side assignment touch no core state. -/
  | moved (pc : Nat) (ha : ∀ p w e, st ≠ .wr p w e) (hr : ∀ p w t, st ≠ .rd p w t) :
    HostEffect k h st s (s.setHost k { h with pc := pc })
  | assigned (t : Nat) (v : HostExpr) (hs : st = .set t v) :
    HostEffect k h st s (s.setHost k (h.assign t (v.eval h.vars)))
  | read (p : Place) (t : Nat) (off : Nat) (v : Word) (s' : State) (hs : st = .rd p 4 t)
      (ho : p.offset = some off) (hv : s.memRead off 4 = .next (v, s')) (hs' : s' = s ∨ s' = s.afterDraw) :
    HostEffect k h st s (s'.setHost k (h.assign t v))
  | write (p : Place) (e : HostExpr) (off : Nat) (t : State) (hs : st = .wr p 4 e)
      (ho : p.offset = some off) (hw : WriteEffect off (e.eval h.vars) (s.setHost k h.advance) t) :
    HostEffect k h st s t

/-- Why a host's statement stops the run (R242), or is no access of the core's window (R67). -/
inductive HostStop (h : HostAgent) (st : HostStmt) (s : State) : Host.Outcome State Fault Refusal → Prop
  | badRead (p : Place) (width t off : Nat) (hs : st = .rd p width t) (ho : p.offset = some off)
      (hm : accessMalformed off width = true) : HostStop h st s (.fault .badAccess)
  | badWrite (p : Place) (width : Nat) (e : HostExpr) (off : Nat) (hs : st = .wr p width e)
      (ho : p.offset = some off) (hm : accessMalformed off width = true) :
    HostStop h st s (.fault .badAccess)
  | busyWrite (p : Place) (e : HostExpr) (off : Nat) (hs : st = .wr p 4 e) (ho : p.offset = some off)
      (hb : s.busy = true) (hg : BusyGuarded off) : HostStop h st s (.fault .hostWriteWhileBusy)
  | outsideRead (p : Place) (width t : Nat) (hs : st = .rd p width t) (ho : p.offset = none) :
    HostStop h st s (.refused .outsideWindow)
  | outsideWrite (p : Place) (width : Nat) (e : HostExpr) (hs : st = .wr p width e)
      (ho : p.offset = none) : HostStop h st s (.refused .outsideWindow)

theorem width_of_wellFormed {off width : Nat} (h : accessMalformed off width = false) : width = 4 := by
  simp only [accessMalformed, Bool.or_eq_false_iff, bne_eq_false_iff_eq] at h
  exact h.1

/-- A host's statement has one of its effects or stops the run. -/
theorem State.hostStmt_cases (k : Nat) (h : HostAgent) (st : HostStmt) (s : State) :
    (∃ t, s.hostStmt k h st = .next t ∧ HostEffect k h st s t) ∨ HostStop h st s (s.hostStmt k h st) := by
  cases st with
  | set t v => exact .inl ⟨_, rfl, .assigned t v rfl⟩
  | goto target => exact .inl ⟨_, rfl, .moved target (by simp) (by simp)⟩
  | ifGoto c target =>
    refine .inl ⟨_, rfl, ?_⟩
    by_cases hc : c.holds h.vars = true
    · rw [if_pos hc]
      exact .moved target (by simp) (by simp)
    · rw [if_neg hc]
      exact .moved (h.pc + 1) (by simp) (by simp)
  | rd p width t =>
    cases ho : p.offset with
    | none =>
      refine .inr ?_
      have hx : s.hostStmt k h (.rd p width t) = .refused .outsideWindow := by
        simp [State.hostStmt, State.hostRead, ho]
      rw [hx]
      exact .outsideRead p width t rfl ho
    | some off =>
      rcases s.memRead_cases off width with ⟨hm, hr⟩ | ⟨hm, v, s', hr, hs'⟩
      · refine .inr ?_
        have hx : s.hostStmt k h (.rd p width t) = .fault .badAccess := by
          simp [State.hostStmt, State.hostRead, ho, hr]
        rw [hx]
        exact .badRead p width t off rfl ho hm
      · obtain rfl := width_of_wellFormed hm
        refine .inl ⟨s'.setHost k (h.assign t v), ?_, .read p t off v s' rfl ho hr hs'⟩
        simp [State.hostStmt, State.hostRead, ho, hr]
  | wr p width e =>
    cases ho : p.offset with
    | none =>
      refine .inr ?_
      have hx : s.hostStmt k h (.wr p width e) = .refused .outsideWindow := by
        simp [State.hostStmt, State.hostWrite, ho]
      rw [hx]
      exact .outsideWrite p width e rfl ho
    | some off =>
      have hx : s.hostStmt k h (.wr p width e) =
          (s.setHost k h.advance).memWrite off width (e.eval h.vars) := by
        simp [State.hostStmt, State.hostWrite, ho]
      rw [hx]
      rcases (s.setHost k h.advance).memWrite_cases off width (e.eval h.vars) with
        ⟨hm, hw⟩ | ⟨hm, ⟨hb, hg⟩, hw⟩ | ⟨hm, s', hw, he⟩
      · rw [hw]
        exact .inr (.badWrite p width e off rfl ho hm)
      · obtain rfl := width_of_wellFormed hm
        rw [hw]
        exact .inr (.busyWrite p e off rfl ho hb hg)
      · obtain rfl := width_of_wellFormed hm
        exact .inl ⟨s', hw, .write p e off s' rfl ho he⟩

/-- The state once its turn is taken from the schedule. -/
abbrev State.popTurn (s : State) : State := { s with turns := s.turns.tail }

/-- What one step can do to the state, the turn it takes being used up. -/
inductive StepEffect (s : State) : State → Prop
  /-- Nothing: an idle core, a finished host, a completion that is not enabled. -/
  | nothing : StepEffect s s.popTurn
  | cycle : StepEffect s s.popTurn.cycleOnce
  | completed (f : Flight) (i : Instr) (t : State) (hf : s.flight = some f) (hd : decode f.cmd = .ok i)
      (hc : Completion i s.popTurn t) : StepEffect s t
  | illegal (f : Flight) (e : DecodeError) (hf : s.flight = some f) (hd : decode f.cmd = .error e) :
    StepEffect s (s.popTurn.raise .illegalCommand)
  | reset (ht : s.turns.head? = some .reset) : StepEffect s s.popTurn.resetCore
  | host (k : Nat) (h : HostAgent) (st : HostStmt) (t : State) (hk : s.hasTurn k)
      (hh : s.hosts[k]? = some h) (hst : h.prog[h.pc]? = some st) (he : HostEffect k h st s.popTurn t) : StepEffect s t

/-- The step's answer `o` is a stop, by the statement of the host that has the turn. -/
def StepStop (s : State) (o : Host.Outcome State Fault Refusal) : Prop :=
  ∃ (k : Nat) (h : HostAgent) (st : HostStmt),
    s.hasTurn k ∧ s.hosts[k]? = some h ∧ h.prog[h.pc]? = some st ∧ HostStop h st s.popTurn o

/-- The completion of a command in flight, as the effect of a step. -/
theorem complete_effect (s : State) : ∃ t, s.popTurn.complete = .next t ∧ StepEffect s t := by
  cases hf : s.flight with
  | none => exact ⟨s.popTurn, by simp [State.complete, hf], .nothing⟩
  | some f =>
    cases hd : decode f.cmd with
    | error e => exact ⟨_, by simp [State.complete, hf, hd], .illegal f e hf hd⟩
    | ok i =>
      obtain ⟨t, ht, hc⟩ := exec_completes i s.popTurn
      exact ⟨t, by simpa [State.complete, hf, hd] using ht, .completed f i t hf hd hc⟩

/-- A host's turn, as the effect of a step or as its stop. -/
theorem hostTurn_effect (k : Nat) (s : State) (hk : s.hasTurn k) :
    (∃ t, s.popTurn.hostTurn k = .next t ∧ StepEffect s t) ∨ StepStop s (s.popTurn.hostTurn k) := by
  cases hh : s.hosts[k]? with
  | none => exact .inl ⟨s.popTurn, by simp [State.hostTurn, hh], .nothing⟩
  | some h =>
    cases hst : h.prog[h.pc]? with
    | none => exact .inl ⟨s.popTurn, by simp [State.hostTurn, hh, hst], .nothing⟩
    | some st =>
      have hx : s.popTurn.hostTurn k = s.popTurn.hostStmt k h st := by simp [State.hostTurn, hh, hst]
      rw [hx]
      rcases s.popTurn.hostStmt_cases k h st with ⟨t, ht, he⟩ | hstop
      · exact .inl ⟨t, ht, .host k h st t hk hh hst he⟩
      · exact .inr ⟨k, h, st, hk, hh, hst, hstop⟩

/-- A step has one of the effects or is stopped by a host's statement. -/
theorem step_cases (s : State) : (∃ t, step s = .next t ∧ StepEffect s t) ∨ StepStop s (step s) := by
  cases hts : s.turns with
  | nil =>
    have hs : s.popTurn = s := by cases s; simp_all [State.popTurn]
    have hstep : step s = s.popTurn.idleTurn := by rw [hs]; simp [step, hts]
    rw [hstep]
    unfold State.idleTurn
    by_cases hb : s.popTurn.busy = true
    · rw [if_pos hb]
      exact .inl (complete_effect s)
    · rw [if_neg hb]
      exact hostTurn_effect _ s (.inr ⟨hts, Bool.eq_false_of_not_eq_true hb, rfl⟩)
  | cons x rest =>
    have hstep : step s = s.popTurn.runTurn x := by simp [step, hts, State.popTurn]
    rw [hstep]
    cases x with
    | host k => exact hostTurn_effect k s (.inl (by simp [hts]))
    | cycle => exact .inl ⟨_, rfl, .cycle⟩
    | complete => exact .inl (complete_effect s)
    | reset => exact .inl ⟨_, rfl, .reset (by simp [hts])⟩

/-- What the next state of a step is. -/
theorem step_inversion {s t : State} (h : step s = .next t) : StepEffect s t := by
  rcases step_cases s with ⟨t', h', he⟩ | ⟨k, a, st, -, -, -, hs⟩
  · cases h.symm.trans h'
    exact he
  · rw [h] at hs
    cases hs

end Sys2Proof.Machine
end

