-- ==== Sys2Proof/Laws/Transforms.lean ====
section
/-! SUPPORT. The bytes of a block after each round transform (R152, R155, R159, R162), and the words of a
round key (R29). -/

namespace Sys2Proof.Machine

variable (s k : Block) (inverse : Bool) (r c : Fin 4)

@[simp] theorem byteAt_subBytes : byteAt (subBytes s inverse) r c
    = if inverse then invSboxRom (byteAt s r c) else sboxRom (byteAt s r c) := byteAt_blockOf _ r c

@[simp] theorem byteAt_shiftRows : byteAt (shiftRows s inverse) r c
    = if inverse then byteAt s r (c - r) else byteAt s r (c + r) := byteAt_blockOf _ r c

@[simp] theorem byteAt_mixColumns : byteAt (mixColumns s inverse) r c
    = gmul (mixCoef inverse r 0) (byteAt s 0 c) ^^^ gmul (mixCoef inverse r 1) (byteAt s 1 c) ^^^
      gmul (mixCoef inverse r 2) (byteAt s 2 c) ^^^ gmul (mixCoef inverse r 3) (byteAt s 3 c) := by
  simp only [mixColumns, byteAt_blockOf, gadd_cons, gadd_nil, BitVec.xor_zero, BitVec.xor_assoc]

@[simp] theorem byteAt_addRoundKey : byteAt (addRoundKey s k) r c = byteAt s r c ^^^ byteAt k r c :=
  byteAt_blockOf _ r c

/-- AddRoundKey, word by word. -/
theorem getElem_addRoundKey : (addRoundKey s k)[c] = s[c] ^^^ k[c] :=
  word_ext fun j => by simpa [byteAt] using byteAt_addRoundKey s k j c

/-- Adding the same round key twice gives the block back. -/
@[simp] theorem addRoundKey_addRoundKey : addRoundKey (addRoundKey s k) k = s :=
  block_ext fun r c => by simp

theorem addRoundKey_comm : addRoundKey s k = addRoundKey k s :=
  block_ext fun r c => by simp [BitVec.xor_comm]

/-- Word c of round key n is word 4n + c of the schedule, for every round key there is. -/
theorem getElem_roundKey (w : Schedule) (n : Nat) (hn : n ≤ 14) : (roundKey w n)[c] = w[4 * n + c.val] := by
  have h (i : Nat) (hi : i < 60) : schedWord w i = w[i] := by simp [schedWord, hi]
  fin_cases c <;> simp [roundKey, h _ (show 4 * n < 60 by omega), h _ (show 4 * n + 1 < 60 by omega),
    h _ (show 4 * n + 2 < 60 by omega), h _ (show 4 * n + 3 < 60 by omega)]

end Sys2Proof.Machine
end

