-- ==== Sys2Proof/Tests/Slice0.lean ====
section
/-! SUPPORT. The model's own tests: ill-formed commands are refused, words written out from the spec's
encodings decode, each command gives the spec's published results, and every statement that has hypotheses
has a witness that meets them. Expected values come from 95_test_vectors.md and the examples in the rules. -/

open Sys2Proof Sys2Proof.Machine

namespace Sys2Proof.Tests

/-- The next state, if there is one. -/
def nextOf : Host.Outcome State Fault Refusal → Option State
  | .next s => some s
  | .fault _ => none
  | .refused _ => none

/-- The state after the command w, issued and completed. -/
def after (w : Nat) (s : State) : Option State := nextOf (step (s.withFetchWord 32 w))

/-- Reset, then OPND written. -/
def withOpnd (v : Word) : State := { State.reset with opnd := v }

/-- Reset, then STATE0..3 written. -/
def withBlock (b : Block) : State := { State.reset with block := b }

/-- The known-answer key expanded, and STATE0..3 written. -/
def withKat (b : Block) : State :=
  { State.reset with
    key := knownAnswerKey, sched := keyExpansion knownAnswerKey, keyValid := true, block := b }

/-- A State that stands for a schedule and has KEY_VALID = 1. -/
def valid : State := { State.reset with keyValid := true }

/-- A command in flight, issued from `valid`. -/
def inFlight (w : Word) : State := valid.issue w

/-- What `inFlight w` has in flight. -/
def flightOf (w : Word) : Flight := { cmd := w, snap := valid.snapshot, work := valid.block, stepsDone := 0 }

/-- A host with a program, at its start. -/
def host (prog : List HostStmt) : HostAgent := { prog := prog, pc := 0, vars := [] }

/-- A state in which a host with one statement left has the next turn. -/
def hostState (s : State) (st : HostStmt) : State := { s with hosts := [host [st]], turns := [.host 0] }

/-! ### Well-formedness -/

theorem test_wellFormed_refuses_rnd : (Instr.addRoundKey 16).wellFormed = false := by decide
theorem test_wellFormed_refuses_rnd_imc : (Instr.addRoundKeyImc 16).wellFormed = false := by decide
theorem test_wellFormed_refuses_len_keyExpand : (Instr.keyExpand 256).wellFormed = false := by decide
theorem test_wellFormed_refuses_len_encrypt : (Instr.encrypt 256).wellFormed = false := by decide
theorem test_wellFormed_refuses_len_decrypt : (Instr.decrypt 256).wellFormed = false := by decide
theorem test_wellFormed_accepts_limits :
    (Instr.addRoundKey 15).wellFormed && (Instr.addRoundKeyImc 15).wellFormed
      && (Instr.keyExpand 255).wellFormed && (Instr.encrypt 255).wellFormed
      && (Instr.decrypt 255).wellFormed && Instr.nop.wellFormed = true := by decide

/-! ### Decoding: every command, from the fields of R80 written out as RSV1 LEN RSV0 RND OP -/

theorem test_decode_nop : decodeTableWord 32 0b00000000_00000000_0000_0000_00000000 = some .nop := by decide
theorem test_decode_gfMul : decodeTableWord 32 0b00000000_00000000_0000_0000_00000001 = some .gfMul := by decide
theorem test_decode_gfAdd : decodeTableWord 32 0b00000000_00000000_0000_0000_00000010 = some .gfAdd := by decide
theorem test_decode_rotWord : decodeTableWord 32 0b00000000_00000000_0000_0000_00010000 = some .rotWord := by decide
theorem test_decode_subWord : decodeTableWord 32 0b00000000_00000000_0000_0000_00010001 = some .subWord := by decide
theorem test_decode_rcon : decodeTableWord 32 0b00000000_00000000_0000_0000_00010010 = some .rcon := by decide
theorem test_decode_keyExpand :
    decodeTableWord 32 0b00000000_00100000_0000_0000_00011000 = some (.keyExpand 32) := by decide
theorem test_decode_sbox : decodeTableWord 32 0b00000000_00000000_0000_0000_00100000 = some .sbox := by decide
theorem test_decode_invSbox :
    decodeTableWord 32 0b00000000_00000000_0000_0000_00100001 = some .invSbox := by decide
theorem test_decode_subBytes :
    decodeTableWord 32 0b00000000_00000000_0000_0000_00110000 = some .subBytes := by decide
theorem test_decode_invSubBytes :
    decodeTableWord 32 0b00000000_00000000_0000_0000_00110001 = some .invSubBytes := by decide
theorem test_decode_shiftRows :
    decodeTableWord 32 0b00000000_00000000_0000_0000_00110010 = some .shiftRows := by decide
theorem test_decode_invShiftRows :
    decodeTableWord 32 0b00000000_00000000_0000_0000_00110011 = some .invShiftRows := by decide
theorem test_decode_mixColumns :
    decodeTableWord 32 0b00000000_00000000_0000_0000_00110100 = some .mixColumns := by decide
theorem test_decode_invMixColumns :
    decodeTableWord 32 0b00000000_00000000_0000_0000_00110101 = some .invMixColumns := by decide
theorem test_decode_addRoundKey :
    decodeTableWord 32 0b00000000_00000000_0000_1110_00110110 = some (.addRoundKey 14) := by decide
theorem test_decode_addRoundKeyImc :
    decodeTableWord 32 0b00000000_00000000_0000_0001_00110111 = some (.addRoundKeyImc 1) := by decide
theorem test_decode_encrypt :
    decodeTableWord 32 0b00000000_00010000_0000_0000_01000000 = some (.encrypt 16) := by decide
theorem test_decode_decrypt :
    decodeTableWord 32 0b00000000_00010001_0000_0000_01000001 = some (.decrypt 17) := by decide

/-- The rejected words of 95_test_vectors.md section 6.1. -/
theorem test_decode_rejects :
    [0x00000100, 0x00100001, 0x00000003, 0x0000000F, 0x00000013, 0x00000019, 0x00000022, 0x00000038,
      0x00000042, 0x000000FF, 0xFFFFFFFF, 0x00001036, 0x80200018].map (decodeTableWord 32)
      = List.replicate 13 none := by decide

/-! ### One completed command each (95_test_vectors.md sections 2 to 6) -/

theorem test_nop_clears_errcode :
    (after 0x00000000 { valid with errcode := 5 }).map State.statusWord = some 0x00000002 := by decide
theorem test_gfMul : (after 0x00000001 (withOpnd 0xFFFF021B)).map State.result = some 0x00000036 := by decide
theorem test_gfMul_all_ones : (after 0x00000001 (withOpnd 0xFFFF)).map State.result = some 0x13 := by decide
theorem test_gfAdd : (after 0x00000002 (withOpnd 0xFF1B8357)).map State.result = some 0x00000030 := by decide
theorem test_rotWord : (after 0x00000010 (withOpnd 0x01020304)).map State.result = some 0x02030401 := by decide
theorem test_subWord : (after 0x00000011 (withOpnd 0x2067fcde)).map State.result = some 0xb785b01d := by decide
theorem test_rcon : (after 0x00000012 (withOpnd 0xFFFFFF07)).map State.result = some 0x00000040 := by decide
theorem test_rcon_100 : (after 0x00000012 (withOpnd 0x64)).map State.result = some 0x000000E8 := by
  decide +kernel
theorem test_sbox : (after 0x00000020 (withOpnd 0xFFFFFF53)).map State.result = some 0x000000ed := by decide
theorem test_invSbox : (after 0x00000021 (withOpnd 0x000000ed)).map State.result = some 0x00000053 := by decide

theorem test_keyExpand :
    (after 0x00200018 { State.reset with
        key := #v[0x603deb10, 0x15ca71be, 0x2b73aef0, 0x857d7781, 0x1f352c07, 0x3b6108d7, 0x2d9810a3,
          0x0914dff4] }).map (fun s => (roundKey s.sched 2, roundKey s.sched 14, s.statusWord))
      = some (#v[0x9ba35411, 0x8e6925af, 0xa51a8b5f, 0x2067fcde],
          #v[0xfe4890d1, 0xe6188d0b, 0x046df344, 0x706c631e], 0x00000002) := by decide +kernel

theorem test_keyExpand_wrong_length :
    (after 0x001F0018 valid).map (fun s => (s.statusWord, s.sched)) = some (0x00000016, valid.sched) := by decide

theorem test_subBytes :
    (after 0x00000030 (withBlock #v[0x00112233, 0x44556677, 0x8899aabb, 0xccddeeff])).map State.block
      = some #v[0x638293c3, 0x1bfc33f5, 0xc4eeacea, 0x4bc12816] := by decide
theorem test_invSubBytes :
    (after 0x00000031 (withBlock #v[0x00112233, 0x44556677, 0x8899aabb, 0xccddeeff])).map State.block
      = some #v[0x52e39466, 0x86edd302, 0x97f962fe, 0x27c9997d] := by decide
theorem test_shiftRows :
    (after 0x00000032 (withBlock #v[0x63cab704, 0x0953d051, 0xcd60e0e7, 0xba70e18c])).map State.block
      = some #v[0x6353e08c, 0x0960e104, 0xcd70b751, 0xbacad0e7] := by decide
theorem test_invShiftRows :
    (after 0x00000033 (withBlock #v[0x00010203, 0x04050607, 0x08090a0b, 0x0c0d0e0f])).map State.block
      = some #v[0x000d0a07, 0x04010e0b, 0x0805020f, 0x0c090603] := by decide
theorem test_mixColumns :
    (after 0x00000034 (withBlock #v[0x6353e08c, 0x0960e104, 0xcd70b751, 0xbacad0e7])).map State.block
      = some #v[0x5f726415, 0x57f5bc92, 0xf7be3b29, 0x1db9f91a] := by decide
theorem test_invMixColumns :
    (after 0x00000035 (withBlock #v[0xdb135345, 0x8e4da1bc, 0xf20a225c, 0x2d26314c])).map State.block
      = some #v[0x32a41d55, 0xdb135345, 0xaec36982, 0xa05050d6] := by decide
theorem test_addRoundKey :
    (after 0x00000E36 (withKat #v[0, 0, 0, 0])).map State.block
      = some #v[0x24fc79cc, 0xbf0979e9, 0x371ac23c, 0x6d68de36] := by decide +kernel
theorem test_addRoundKey_fifteen :
    (after 0x00000F36 State.reset).map State.statusWord = some 0x00000044 := by decide
theorem test_addRoundKeyImc :
    (after 0x00000137 (withKat #v[0x00112233, 0x44556677, 0x8899aabb, 0xccddeeff])).map State.block
      = some #v[0x1a0e3a2e, 0x5a4e7a6e, 0x9a8ebaae, 0xdacefaee] := by decide +kernel
theorem test_addRoundKeyImc_no_key :
    (after 0x00000037 State.reset).map State.statusWord = some 0x00000034 := by decide
theorem test_encrypt :
    (after 0x00100040 (withKat #v[0x00112233, 0x44556677, 0x8899aabb, 0xccddeeff])).map State.block
      = some #v[0x8ea2b7ca, 0x516745bf, 0xeafc4990, 0x4b496089] := by decide +kernel
theorem test_encrypt_length_before_key :
    (after 0x00000040 State.reset).map State.statusWord = some 0x00000024 := by decide
theorem test_decrypt :
    (after 0x00100041 (withKat #v[0x00112233, 0x44556677, 0x8899aabb, 0xccddeeff])).map State.block
      = some #v[0xeab487e6, 0x8ec92db4, 0xac288a24, 0x757b0262] := by decide +kernel
theorem test_decrypt_no_key : (after 0x00100041 State.reset).map State.statusWord = some 0x00000034 := by decide
theorem test_illegal_command :
    (after 0x00001036 valid).map (fun s => (s.statusWord, s.block)) = some (0x00000056, valid.block) := by decide

/-! ### The host's side (95_test_vectors.md section 6.3) -/

theorem test_wait_loop_statements :
    issueStmts 5 0 .nop = [.wr (.off 0x000) 4 (.lit 0), .rd (.off 0x004) 4 0, .ifGoto (.bit (.var 0) 0) 6] := by
  decide
theorem test_status_while_busy :
    (nextOf (step (hostState (inFlight 0) (rdReg .status 7)))).map (fun s => s.hosts.map HostAgent.vars)
      = some [[(7, 0x00000003)]] := by decide
theorem test_command_write :
    (nextOf (step (hostState valid (cmdStmt (.encrypt 16))))).map (fun s => (s.busy, s.flight))
      = some (true, some (flightOf 0x00100040)) := by decide
theorem test_busy_write_has_no_next :
    nextOf (step (hostState (inFlight 0) (wrReg (.state 0) 1))) = none := by decide

/-! ### Witnesses: for every statement with hypotheses, states and operands that meet them -/

theorem witness_EncodeThenDecodeReturnsCommand :
    (Instr.addRoundKey 15).wellFormed = true ∧ (Instr.encrypt 255).wellFormed = true ∧
      Instr.nop.wellFormed = true := by decide

theorem witness_DecodedWordIsItsCommandsEncoding : decode 0x00FF0018 = .ok (.keyExpand 255) := by rfl

theorem witness_EncodingOfEveryCommand : 15 < 16 ∧ 255 < 256 := by decide

/-- Both ends of every range of R85, and a word for each class with a forbidden field set. -/
theorem witness_IllegalWordsEndInIllegalCommand :
    (∀ w ∈ [0x03, 0x0F, 0x13, 0x17, 0x19, 0x1F, 0x22, 0x2F, 0x38, 0x3F, 0x42, 0xFF, 0x00000100, 0x80000035,
        0x00001036, 0x00010037, 0x00000118, 0x01100041], illegalWord w) ∧
      (∀ w ∈ [0x02, 0x10, 0x12, 0x18, 0x20, 0x21, 0x30, 0x35, 0x00000F36, 0x00000F37, 0x00FF0040, 0x00FF0041],
        ¬ illegalWord w) ∧
      (inFlight 0x03).flight = some (flightOf 0x03) ∧ (inFlight 0x03).turns = [] ∧
      ({ inFlight 0x03 with turns := [.complete] } : State).turns = .complete :: [] := by
  refine ⟨?_, ?_, rfl, rfl, rfl⟩ <;> simp [illegalWord]

theorem witness_StepRunsTheDecodedCommand :
    (inFlight 0x00100040).flight = some (flightOf 0x00100040) ∧
      decode (flightOf 0x00100040).cmd = .ok (.encrypt 16) ∧ (inFlight 0x00100040).turns = [] ∧
      ({ inFlight 0x00100040 with turns := [.complete, .cycle] } : State).turns = .complete :: [.cycle] ∧
      decodeTableWord 32 0x00100040 = some (.encrypt 16) := ⟨rfl, rfl, rfl, rfl, rfl⟩

theorem witness_CmdWriteIssuesTheCommand : valid.flight = none ∧ (inFlight 0).flight.isSome = true :=
  ⟨rfl, rfl⟩

theorem witness_EveryCommandCompletes :
    (inFlight 0x03).flight = some (flightOf 0x03) ∧ (inFlight 0x03).turns = [] ∧
      ({ inFlight 0x03 with turns := [.complete, .host 0] } : State).turns = .complete :: [.host 0] :=
  ⟨rfl, rfl, rfl⟩

theorem witness_CyclesAreInvisibleToHosts :
    ({ inFlight 0x00100040 with turns := [.cycle, .cycle] } : State).turns = .cycle :: [.cycle] ∧
      ({ valid with turns := [.cycle] } : State).turns = .cycle :: [] := ⟨rfl, rfl⟩

theorem witness_DatapathReachesTheCipherResult :
    valid.keyValid = true ∧ (valid.issue 0x00100040).flight = some (flightOf 0x00100040) ∧
      (valid.issue 0x00100041).flight = some (flightOf 0x00100041) := ⟨rfl, rfl, rfl⟩

/-- A host about to issue nothing more and wait, with turns of both allowed kinds still listed. -/
theorem witness_WaitTerminates :
    ∃ (s w : State) (h : HostAgent), s.hosts = [h] ∧ h.prog[0]? = some (rdReg .status 0) ∧
      h.prog[0 + 1]? = some (.ifGoto (.bit (.var 0) 0) 0) ∧ h.pc = 0 ∧ varsWf h.vars = true ∧
      (∀ x ∈ s.turns, x = .host 0 ∨ x = .cycle) ∧ s.busy = true ∧ s.complete = .next w :=
  ⟨{ inFlight 0 with hosts := [host (waitStmts 0 0)], turns := [.host 0, .cycle, .host 0] }, _,
    host (waitStmts 0 0), rfl, rfl, rfl, rfl, by decide, by simp, rfl, rfl⟩

/-- A write of OPND and a read of STATUS, the first and a middle register of the window. -/
theorem witness_HostStatementsAccessTheWindow :
    (hostState valid (wrReg .opnd 5)).turns = .host 0 :: [] ∧
      (hostState valid (wrReg .opnd 5)).hosts[0]? = some (host [wrReg .opnd 5]) ∧
      (host [wrReg .opnd 5]).prog[0]? = some (.wr (.off 0x008) 4 (.lit 5)) ∧ 0x008 < 0x200 ∧
      (hostState valid (rdReg .status 3)).turns = .host 0 :: [] ∧
      (hostState valid (rdReg .status 3)).hosts[0]? = some (host [rdReg .status 3]) ∧
      (host [rdReg .status 3]).prog[0]? = some (.rd (.off 0x004) 4 3) ∧ 0x004 < 0x200 ∧
      valid.memRead 0x004 4 = .next (0x00000002, valid) :=
  ⟨rfl, rfl, rfl, by decide, rfl, rfl, rfl, by decide, rfl⟩

theorem witness_ResetAbandonsTheCommandInFlight :
    ({ inFlight 0x00100040 with turns := [.reset, .complete] } : State).turns = .reset :: [.complete] := rfl

theorem reset_inv : State.reset.Inv where
  errcode_listed := by decide
  schedule_expanded := by simp [State.reset]
  snapshot_current := by simp [State.reset]
  datapath_on_course := by simp [State.reset]
  vars_canonical := by simp [State.reset]

/-- A host's write from a state that meets the invariant. -/
theorem witness_EveryStepKeepsTheInvariant :
    ∃ s t : State, s.Inv ∧ step s = .next t ∧ t ≠ s :=
  ⟨hostState State.reset (wrReg .opnd 5), _,
    { reset_inv with vars_canonical := by simp [hostState, host, varsWf] }, rfl, by decide⟩

theorem witness_StatusFields : 8 ≤ 8 ∧ 8 ≤ 31 := by decide

theorem witness_RegisterMap :
    0x040 ≤ 0x0FF ∧ regAt 0x0FC = none ∧ regAt 0x040 = none ∧ 0x1F0 ≤ 0x1FF ∧ regAt 0x1F0 = none ∧
      regAt 0x1FC = none ∧ regAt 0x1EC = some (.rkw 59) ∧ regAt 0x03C = some (.key 7) := by decide

/-- An idle core with and without a schedule, a busy one, and the ends of both reserved ranges. -/
theorem witness_HostReads :
    valid.flight = none ∧ valid.keyValid = true ∧ State.reset.keyValid = false ∧
      (inFlight 0).flight.isSome = true ∧
      ∀ off ∈ [0x040, 0x0FC, 0x1F0, 0x1FC],
        off % 4 = 0 ∧ (0x040 ≤ off ∧ off < 0x100 ∨ 0x1F0 ≤ off ∧ off < 0x200) :=
  ⟨rfl, rfl, rfl, rfl, by decide⟩

theorem witness_HostWrites :
    valid.flight = none ∧ ∀ off ∈ [0x040, 0x0FC, 0x1F0, 0x1FC],
      off % 4 = 0 ∧ (0x040 ≤ off ∧ off < 0x100 ∨ 0x1F0 ≤ off ∧ off < 0x200) := ⟨rfl, by decide⟩

theorem witness_WritesWhileBusyFault : (inFlight 0).flight.isSome = true := rfl

theorem witness_MalformedAccessesFault :
    (2 ≠ 4 ∨ 0x004 % 4 ≠ 0) ∧ (4 ≠ 4 ∨ 0x006 % 4 ≠ 0) := by decide

theorem witness_WindowAddresses :
    windowOffset 0x200 0x200 = some 0x000 ∧ windowOffset 0x200 0x3FF = some 0x1FF ∧
      windowOffset 0x200 0x1FF = none ∧ windowOffset 0x200 0x400 = none := by decide

/-- Each of the ways a host access stops a run, by a host the list names and by one the list does not. -/
theorem witness_OnlyHostAccessesStopARun :
    step (hostState valid (.rd (.off 0x004) 2 0)) = .fault .badAccess ∧
      step (hostState valid (.wr (.off 0x006) 4 (.lit 0))) = .fault .badAccess ∧
      step (hostState (inFlight 0) (wrReg .cmd 0)) = .fault .hostWriteWhileBusy ∧
      step (hostState (inFlight 0) (wrReg (.key 7) 5)) = .fault .hostWriteWhileBusy ∧
      step (hostState valid (.rd (.off 0x200) 4 0)) = .refused .outsideWindow ∧
      step { hostState valid (.wr (.off 0x200) 4 (.lit 0)) with turns := [] } = .refused .outsideWindow :=
  ⟨rfl, rfl, rfl, rfl, rfl, rfl⟩

theorem witness_CommandsNeverWriteKeyOrOperand :
    ∃ t, exec (.encrypt 16) (inFlight 0x00100040) = .next t := ⟨_, rfl⟩

theorem witness_OnlyScalarCommandsWriteResult :
    (∃ t, exec .gfMul (inFlight 0x01) = .next t) ∧ Instr.gfMul.isScalar = true ∧
      (∃ t, exec .shiftRows (inFlight 0x32) = .next t) ∧ Instr.shiftRows.isScalar = false :=
  ⟨⟨_, rfl⟩, rfl, ⟨_, rfl⟩, rfl⟩

theorem witness_OnlyStateCommandsWriteState :
    (∃ t, exec .shiftRows (inFlight 0x32) = .next t) ∧ Instr.shiftRows.isStateCommand = true ∧
      (∃ t, exec .gfMul (inFlight 0x01) = .next t) ∧ Instr.gfMul.isStateCommand = false :=
  ⟨⟨_, rfl⟩, rfl, ⟨_, rfl⟩, rfl⟩

/-- The first KEY_EXPAND after reset. -/
theorem witness_ScheduleChangesOnlyByKeyExpand :
    ∃ t, step (State.reset.issue 0x00200018) = .next t ∧
      (State.reset.issue 0x00200018).turns.head? ≠ some .reset ∧
      t.keyValid ≠ (State.reset.issue 0x00200018).keyValid :=
  ⟨((State.reset.issue 0x00200018).writeSchedule (keyExpansion State.reset.key)).succeed, rfl, by decide,
    by rw [State.succeed_keyValid, State.writeSchedule_keyValid]; decide⟩

theorem witness_KeyChangesOnlyByHostWrite :
    ∃ t, step { hostState valid (wrReg (.key 7) 5) with turns := [] } = .next t ∧
      ({ hostState valid (wrReg (.key 7) 5) with turns := [] } : State).turns.head? ≠ some .reset ∧
      t.key ≠ valid.key := ⟨_, rfl, by decide, by decide⟩

/-- An error of a command's own and an illegal word. -/
theorem witness_ErrorsHaveNoPartialEffect :
    (∃ t, (inFlight 0x00000F36).flight = some (flightOf 0x00000F36) ∧
      (inFlight 0x00000F36).complete = .next t ∧ t.errcode ≠ 0) ∧
    ∃ t, (inFlight 0x03).flight = some (flightOf 0x03) ∧ (inFlight 0x03).complete = .next t ∧
      t.errcode ≠ 0 := ⟨⟨_, rfl, rfl, by decide⟩, ⟨_, rfl, rfl, by decide⟩⟩

theorem witness_NopClearsErrcode :
    (inFlight 0).flight = some (flightOf 0) ∧
      (∀ (s : State) (f : Flight), s.flight = some f →
        exec .nop s = .next { s with errcode := 0, flight := none }) ∧
      ({ valid with errcode := 5 } : State).statusWord = 0x00000056 := ⟨rfl, fun _ _ _ => rfl, by decide⟩

theorem witness_GfMulResult : (inFlight 0x01).flight = some (flightOf 0x01) := rfl
theorem witness_GfAddResult : (inFlight 0x02).flight = some (flightOf 0x02) := rfl
theorem witness_RotWordResult : (inFlight 0x10).flight = some (flightOf 0x10) := rfl
theorem witness_SubWordResult : (inFlight 0x11).flight = some (flightOf 0x11) := rfl
theorem witness_RconResult :
    (inFlight 0x12).flight = some (flightOf 0x12) ∧ (254 : Byte) ≠ 0 ∧ (254 : Byte) ≠ 255 ∧
      (204 : Fin 205).val ≠ 0 := ⟨rfl, by decide, by decide, by decide⟩
theorem witness_SboxLookupResults :
    (inFlight 0x20).flight = some (flightOf 0x20) ∧ (inFlight 0x21).flight = some (flightOf 0x21) := ⟨rfl, rfl⟩
theorem witness_KeyExpandResult :
    (inFlight 0x00200018).flight = some (flightOf 0x00200018) ∧ 33 ≠ 32 ∧ 8 ≤ 8 ∧ 8 < 60 ∧ 8 ≤ 59 ∧ 59 < 60 ∧
      12 % 8 = 4 ∧ 9 % 8 ≠ 0 ∧ 9 % 8 ≠ 4 := ⟨rfl, by decide⟩
theorem witness_SubBytesResults :
    (inFlight 0x30).flight = some (flightOf 0x30) ∧ (inFlight 0x31).flight = some (flightOf 0x31) := ⟨rfl, rfl⟩

/-- Row 3, column 3: the byte comes from column 2 one way and from column 0 the other. -/
theorem witness_ShiftRowsResults :
    (inFlight 0x32).flight = some (flightOf 0x32) ∧ (inFlight 0x33).flight = some (flightOf 0x33) ∧
      (2 : Fin 4).val = ((3 : Fin 4).val + (3 : Fin 4).val) % 4 ∧
      (0 : Fin 4).val = ((3 : Fin 4).val + 4 - (3 : Fin 4).val) % 4 ∧
      ∀ r c, byteAt #v[0x01020304, 0x01020304, 0x01020304, 0x01020304] r c
        = byteAt #v[0x01020304, 0x01020304, 0x01020304, 0x01020304] r 0 :=
  ⟨rfl, rfl, by decide, by decide, by decide⟩

theorem witness_MixColumnsResults :
    (inFlight 0x34).flight = some (flightOf 0x34) ∧ (inFlight 0x35).flight = some (flightOf 0x35) ∧
      (#v[0x01020304, 0, 0, 0xAAAAAAAA] : Block)[(0 : Fin 4)] = wordOf 0x01 0x02 0x03 0x04 ∧
      (#v[0x01020304, 0, 0, 0xAAAAAAAA] : Block)[(3 : Fin 4)] = wordOf 0xAA 0xAA 0xAA 0xAA :=
  ⟨rfl, rfl, by decide, by decide⟩

theorem witness_MixColumnsIsLinear :
    (#v[1, 2, 3, 4] : Block)[(3 : Fin 4)] = (#v[5, 6, 7, 4] : Block)[(3 : Fin 4)] := by decide

/-- The last legal and the first illegal round index, with and without a schedule. -/
theorem witness_AddRoundKeyResult :
    (inFlight 0x00000E36).flight = some (flightOf 0x00000E36) ∧ 14 < 15 ∧ 14 ≤ 14 ∧
      (flightOf 0x00000E36).snap.keyValid = true ∧
      (State.reset.issue 0x00000E36).flight
        = some { cmd := 0x00000E36, snap := State.reset.snapshot, work := State.reset.block, stepsDone := 0 } ∧
      State.reset.snapshot.keyValid = false := ⟨rfl, by decide, by decide, rfl, rfl, rfl⟩

theorem witness_AddRoundKeyImcResult :
    (inFlight 0x00000E37).flight = some (flightOf 0x00000E37) ∧ 14 < 15 ∧ 14 ≤ 14 ∧
      (flightOf 0x00000E37).snap.keyValid = true ∧
      (State.reset.issue 0x00000E37).flight
        = some { cmd := 0x00000E37, snap := State.reset.snapshot, work := State.reset.block, stepsDone := 0 } ∧
      State.reset.snapshot.keyValid = false := ⟨rfl, by decide, by decide, rfl, rfl, rfl⟩

theorem witness_EncryptResult :
    (inFlight 0x00100040).flight = some (flightOf 0x00100040) ∧ 15 ≠ 16 ∧ 17 ≠ 16 ∧
      (flightOf 0x00100040).snap.keyValid = true ∧
      (State.reset.issue 0x00100040).flight
        = some { cmd := 0x00100040, snap := State.reset.snapshot, work := State.reset.block, stepsDone := 0 } ∧
      State.reset.snapshot.keyValid = false := ⟨rfl, by decide, by decide, rfl, rfl, rfl⟩

theorem witness_DecryptResult :
    (inFlight 0x00100041).flight = some (flightOf 0x00100041) ∧ 15 ≠ 16 ∧ 17 ≠ 16 ∧
      (flightOf 0x00100041).snap.keyValid = true ∧
      (State.reset.issue 0x00100041).flight
        = some { cmd := 0x00100041, snap := State.reset.snapshot, work := State.reset.block, stepsDone := 0 } ∧
      State.reset.snapshot.keyValid = false := ⟨rfl, by decide, by decide, rfl, rfl, rfl⟩

theorem witness_CommandFieldErrors : 31 ≠ 32 ∧ 33 ≠ 32 ∧ 15 ≠ 16 ∧ 17 ≠ 16 ∧ 14 < 15 := by decide

theorem witness_NoKeyScheduleErrors :
    (State.reset.issue 0x00000E36).flight
        = some { cmd := 0x00000E36, snap := State.reset.snapshot, work := State.reset.block, stepsDone := 0 } ∧
      State.reset.snapshot.keyValid = false ∧ 14 ≤ 14 := ⟨rfl, rfl, by decide⟩

theorem witness_GmulIsPolynomialProduct :
    ∃ poly : Byte → Polynomial (ZMod 2),
      ∀ x, poly x = ∑ i ∈ Finset.range 8, if x.getLsbD i then Polynomial.X ^ i else 0 := ⟨_, fun _ => rfl⟩

theorem witness_SboxTablesAndFormula : (0x53 : Byte) ≠ 0 ∧ sboxRom 0x53 = 0xed ∧ 0x53 = invSboxRom 0xed := by
  decide

theorem witness_AddRoundKeySequences : 14 ≤ 14 ∧ valid.flight = none ∧ valid.keyValid = true :=
  ⟨by decide, rfl, rfl⟩

theorem witness_EncryptDecryptRestoresTheState : valid.flight = none ∧ valid.keyValid = true := ⟨rfl, rfl⟩

/-- Two hosts, each behind its last statement, and a schedule in the store. -/
theorem witness_EndedRunShowsTheRegisters :
    ({ valid with hosts := [host [], { host [rdReg .status 0] with pc := 1 }] } : State).runEnded = true ∧
      ({ valid with hosts := [host [], { host [rdReg .status 0] with pc := 1 }] } : State).turns = [] ∧
      valid.keyValid = true := by decide

theorem witness_BlockBytesAreTheRegisters :
    (13 : Fin 16).val = (1 : Fin 4).val + 4 * (3 : Fin 4).val := by decide

end Sys2Proof.Tests
end

section
/-! PROOFS of the statements about the registers and the State they hold (10_state.md): O20, O22, O30, O59. -/

namespace Sys2Proof.Machine

/-! ### The register window -/

/-- An offset that is no register's is reserved (R63). -/
theorem regAt_eq_none {off : Nat} (h : ∀ r : Reg, r.off ≠ off) : regAt off = none :=
  Option.eq_none_iff_forall_ne_some.mpr fun r hr => h r (off_of_regAt hr)

/-- No register lies in the two reserved ranges (R21). -/
theorem Reg.off_not_reserved (r : Reg) : ¬ (0x040 ≤ r.off ∧ r.off < 0x100) ∧ r.off < 0x1F0 := by
  cases r <;> simp only [Reg.off] <;> omega

/-- The two reserved ranges hold no register (R21, R63). -/
theorem regAt_reserved {off : Nat} (h : 0x040 ≤ off ∧ off < 0x100 ∨ 0x1F0 ≤ off ∧ off < 0x200) :
    regAt off = none := by
  refine regAt_eq_none fun r hr => ?_
  obtain ⟨hlow, hhigh⟩ := r.off_not_reserved
  omega

/-- Settles O20: each register is found at its offset, which is the table's, and no register lies in a reserved
range. -/
theorem registerMap : Obligations.RegisterMap :=
  ⟨regAt_off .cmd, regAt_off .status, regAt_off .opnd, regAt_off .result,
    fun c => regAt_off (.state c), fun i => regAt_off (.key i), fun i => regAt_off (.rkw i),
    fun _ hlo hhi => regAt_reserved (.inl ⟨hlo, Nat.lt_succ_of_le hhi⟩),
    fun _ hlo hhi => regAt_reserved (.inr ⟨hlo, Nat.lt_succ_of_le hhi⟩),
    fun _ _ => off_of_regAt⟩

/-! ### Host writes -/

/-- With BUSY = 0 a guarded write takes effect (R211). -/
theorem State.unlessBusy_of_idle {s : State} (h : s.flight = none) (t : State) :
    s.unlessBusy t = .next t := by
  simp [State.unlessBusy, State.busy, h]

/-- On an idle core a write at the offset of a guarded register is that register's write (R211). -/
theorem State.memWrite_off_of_idle {s t : State} {r : Reg} {v : Word} (hf : s.flight = none)
    (hw : s.writeReg r v = s.unlessBusy t) : s.memWrite r.off 4 v = .next t := by
  rw [State.memWrite_off, hw, State.unlessBusy_of_idle hf]

/-- An aligned write where no register stands is ignored (R63). -/
theorem State.memWrite_of_regAt_none (s : State) (v : Word) {off : Nat} (ha : off % 4 = 0)
    (hr : regAt off = none) : s.memWrite off 4 v = .next s := by
  simp [State.memWrite, accessMalformed, ha, hr]

/-- One word of a register group after a write of one of them. -/
theorem getElem_set_fin {n : Nat} (xs : Vector Word n) (i j : Fin n) (v : Word) :
    (xs.set i.val v)[j] = if j = i then v else xs[j] := by
  simp [Vector.getElem_set, Fin.ext_iff, eq_comm]

/-- Settles O22: a write at a register's offset is a write of that register, whose guard passes on an idle core. -/
theorem hostWrites : Obligations.HostWrites := by
  intro s v
  refine ⟨fun hf => ⟨State.memWrite_off_of_idle (r := .opnd) hf rfl, fun c => ?_, fun i => ?_⟩,
    s.memWrite_off .status v, s.memWrite_off .result v, fun i => s.memWrite_off (.rkw i) v,
    fun off ha hres => s.memWrite_of_regAt_none v ha (regAt_reserved hres)⟩
  · exact ⟨_, State.memWrite_off_of_idle (r := .state c) hf rfl, fun d => getElem_set_fin s.block c d v⟩
  · exact ⟨_, State.memWrite_off_of_idle (r := .key i) hf rfl, fun j => getElem_set_fin s.key i j v⟩

/-! ### The schedule store -/

/-- No host write reaches the schedule store or KEY_VALID (R30, R32, R211). -/
theorem WriteEffect.schedule_unchanged {off : Nat} {v : Word} {s t : State} (h : WriteEffect off v s t) :
    t.sched = s.sched ∧ t.keyValid = s.keyValid := by
  cases h <;> exact ⟨rfl, rfl⟩

/-- No statement of a host reaches the schedule store or KEY_VALID (R88). -/
theorem HostEffect.schedule_unchanged {k : Nat} {h : HostAgent} {st : HostStmt} {s t : State}
    (he : HostEffect k h st s t) : t.sched = s.sched ∧ t.keyValid = s.keyValid := by
  cases he with
  | moved pc ha hr => exact ⟨rfl, rfl⟩
  | assigned x v hs => exact ⟨rfl, rfl⟩
  | read p x off v s' hs ho hv hs' => obtain rfl | rfl := hs' <;> exact ⟨rfl, rfl⟩
  | write p e off t hs ho hw => exact hw.schedule_unchanged

/-- A completion leaves the schedule store and KEY_VALID, or is that of a KEY_EXPAND of 32 bytes (R34). -/
theorem Completion.schedule_cases {i : Instr} {s t : State} (h : Completion i s t) :
    (t.sched = s.sched ∧ t.keyValid = s.keyValid) ∨
      (i = .keyExpand 32 ∧ t = (s.writeSchedule (keyExpansion s.operands.key)).succeed) := by
  cases h with
  | schedule hi => exact .inr ⟨hi, rfl⟩
  | error e he => exact .inl ⟨rfl, rfl⟩
  | result v hi => exact .inl ⟨rfl, rfl⟩
  | block b hi => exact .inl ⟨rfl, rfl⟩
  | nothing hi => exact .inl ⟨rfl, rfl⟩

/-- What a step that is no reset does to the schedule store and KEY_VALID: nothing, or what a KEY_EXPAND of 32
bytes does with the operands it latched (R34, R215). -/
theorem StepEffect.schedule_cases {s t : State} (h : StepEffect s t) (hr : s.turns.head? ≠ some .reset) :
    (t.sched = s.sched ∧ t.keyValid = s.keyValid) ∨
      ∃ f, s.flight = some f ∧ decode f.cmd = .ok (.keyExpand 32) ∧
        t = (s.popTurn.writeSchedule (keyExpansion f.snap.key)).succeed := by
  cases h with
  | nothing => exact .inl ⟨rfl, rfl⟩
  | cycle => exact .inl ⟨rfl, rfl⟩
  | illegal f e hf hd => exact .inl ⟨rfl, rfl⟩
  | reset ht => exact absurd ht hr
  | host k a st t hk hh hst he => exact .inl he.schedule_unchanged
  | completed f i t hf hd hc =>
    obtain hkeep | ⟨rfl, rfl⟩ := hc.schedule_cases
    · exact .inl hkeep
    · exact .inr ⟨f, hf, hd, by rw [State.operands_withTurns, State.operands_of_flight hf]⟩

/-- Settles O30: by the cases of a step, of which only the completion of a KEY_EXPAND of 32 bytes changes either. -/
theorem scheduleChangesOnlyByKeyExpand : Obligations.ScheduleChangesOnlyByKeyExpand := by
  intro s t hstep hr hchange
  obtain ⟨hsched, hvalid⟩ | ⟨f, hf, hd, rfl⟩ := (step_inversion hstep).schedule_cases hr
  · exact (hchange.elim (· hsched) (· hvalid)).elim
  · exact ⟨f, hf, hd, rfl, rfl, rfl, rfl⟩

/-! ### The State as a block of 16 bytes -/

/-- generateState puts byte r + 4c of its input at row r, column c (R24). -/
@[simp] theorem byteAt_generateState (input : Fin 16 → Byte) (r c : Fin 4) :
    byteAt (generateState input) r c = input ⟨r.val + 4 * c.val, by omega⟩ :=
  byteAt_blockOf _ r c

/-- generateOutput's byte r + 4c is the byte at row r, column c (R24). -/
theorem generateOutput_eq_byteAt (s : Block) {n : Fin 16} {r c : Fin 4} (h : n.val = r.val + 4 * c.val) :
    generateOutput s n = byteAt s r c := by
  have hr : (⟨n.val % 4, by omega⟩ : Fin 4) = r := Fin.ext (by simp only; omega)
  have hc : (⟨n.val / 4, by omega⟩ : Fin 4) = c := Fin.ext (by simp only; omega)
  simp only [generateOutput, hr, hc]

theorem generateState_generateOutput (s : Block) : generateState (generateOutput s) = s :=
  block_ext fun r c => by rw [byteAt_generateState, generateOutput_eq_byteAt s rfl]

theorem generateOutput_generateState (input : Fin 16 → Byte) :
    generateOutput (generateState input) = input := by
  funext n
  have hn : n.val % 4 + 4 * (n.val / 4) = n.val := Nat.mod_add_div n.val 4
  simp only [generateOutput, byteAt_generateState, hn]

/-- Settles O59: the block maps undo each other byte by byte, and both place byte r + 4c at row r, column c. -/
theorem blockBytesAreTheRegisters : Obligations.BlockBytesAreTheRegisters := by
  refine ⟨fun _ _ _ => rfl, generateState_generateOutput, generateOutput_generateState, ?_⟩
  intro s input n c r hn
  have hidx : (⟨r.val + 4 * c.val, by omega⟩ : Fin 16) = n := Fin.ext hn.symm
  have hout := generateOutput_eq_byteAt s hn
  exact ⟨by rw [byteAt_generateState, hidx], hout, hout⟩

end Sys2Proof.Machine
end

section
/-! PROOF of the statement about malformed accesses of the register window (20_memory.md): O24. -/

namespace Sys2Proof.Machine

/-- The interface's accesses are the 32-bit ones at multiples of 4; every other one is malformed (R62). -/
theorem accessMalformed_eq_true_iff {off width : Nat} :
    accessMalformed off width = true ↔ width ≠ 4 ∨ off % 4 ≠ 0 := by
  simp [accessMalformed]

/-- A malformed read is a fault whatever the offset holds (R62). -/
theorem State.memRead_of_malformed {off width : Nat} (s : State) (h : accessMalformed off width = true) :
    s.memRead off width = .fault .badAccess := if_pos h

/-- A malformed write is a fault whatever the offset holds, also with BUSY = 1 (R62). -/
theorem State.memWrite_of_malformed {off width : Nat} (s : State) (v : Word)
    (h : accessMalformed off width = true) : s.memWrite off width v = .fault .badAccess := if_pos h

/-- Settles O24: both accesses check width and alignment before anything else. -/
theorem malformedAccessesFault : Obligations.MalformedAccessesFault := by
  intro s off width v h
  have hm : accessMalformed off width = true := accessMalformed_eq_true_iff.mpr h
  exact ⟨s.memRead_of_malformed hm, s.memWrite_of_malformed v hm⟩

end Sys2Proof.Machine
end

section
/-! PROOFS of the statements about the encoding of the commands (30_encoding.md): O4, O6. -/

namespace Sys2Proof

/-! ### The word of a command -/

/-- R84's word is OP, RND and LEN shifted to their places (R80). -/
theorem encodeFields_eq_or (op : Byte) {rnd len : Nat} (hr : rnd < 16) (hl : len < 256) :
    encodeFields op rnd len =
      BitVec.ofNat 32 len <<< 16 ||| BitVec.ofNat 32 rnd <<< 8 ||| op.setWidth 32 := by
  obtain ⟨n, rfl⟩ : ∃ n : BitVec 4, n.toNat = rnd := ⟨⟨rnd, hr⟩, rfl⟩
  obtain ⟨m, rfl⟩ : ∃ m : BitVec 8, m.toNat = len := ⟨⟨len, hl⟩, rfl⟩
  rw [BitVec.ofNat_toNat, BitVec.ofNat_toNat]
  ext i hi
  grind [encodeFields]

/-- The word of a class R command: its LEN is 0 (R84). -/
theorem encodeFields_len_zero (op : Byte) {rnd : Nat} (h : rnd < 16) :
    encodeFields op rnd 0 = BitVec.ofNat 32 rnd <<< 8 ||| op.setWidth 32 := by
  simp [encodeFields_eq_or op h]

/-- The word of a class L command: its RND is 0 (R84). -/
theorem encodeFields_rnd_zero (op : Byte) {len : Nat} (h : len < 256) :
    encodeFields op 0 len = BitVec.ofNat 32 len <<< 16 ||| op.setWidth 32 := by
  simp [encodeFields_eq_or op (rnd := 0) (by decide) h]

/-- Settles O4: a word with no free field is a number, and the others are OP with RND or LEN in its place. -/
theorem encodingOfEveryCommand : Obligations.EncodingOfEveryCommand :=
  ⟨rfl, rfl, rfl, rfl, rfl, rfl, rfl, rfl, rfl, rfl, rfl, rfl, rfl, rfl,
    fun _ h => ⟨encodeFields_len_zero 0x36 h, encodeFields_len_zero 0x37 h⟩,
    fun _ h => ⟨encodeFields_rnd_zero 0x18 h, encodeFields_rnd_zero 0x40 h, encodeFields_rnd_zero 0x41 h⟩,
    rfl, rfl, rfl⟩

/-! ### The words that select a row -/

/-- The bits outside OP that a word of the class must hold at 0 (R81, R85). -/
def FieldClass.unused : FieldClass → Word
  | .N => 0xFFFFFF00
  | .R => 0xFFFFF000
  | .L => 0xFF00FF00

theorem FieldClass.mask_eq_or (c : FieldClass) : c.mask = 0xFF ||| c.unused := by
  cases c <;> rfl

theorem FieldClass.op_and_unused (c : FieldClass) : 0xFF &&& c.unused = 0 := by
  cases c <;> rfl

theorem and_or_and_self (w a b : Word) : w &&& (a ||| b) &&& a = w &&& a := by
  ext i hi
  grind

/-- To compare two disjoint groups of bits with a pattern that lies in the first is to compare the first with the
pattern and the second with 0. -/
theorem and_or_eq_iff {w p a b : Word} (hp : p &&& a = p) (hab : a &&& b = 0) :
    w &&& (a ||| b) = p ↔ w &&& a = p ∧ w &&& b = 0 := by
  constructor
  · intro h
    have hpb : p &&& b = 0 := by rw [← hp, BitVec.and_assoc, hab]; exact BitVec.and_zero
    exact ⟨by rw [← and_or_and_self w a b, h, hp],
      by rw [← and_or_and_self w b a, BitVec.or_comm, h, hpb]⟩
  · rintro ⟨ha, hb⟩
    rw [BitVec.and_or_distrib_left, ha, hb]
    exact BitVec.or_zero

/-- Every row compares the bits of its class, and its match value lies in OP (R83). -/
theorem opcodeTable_masks : ∀ r ∈ opcodeTable, r.mask = r.cls.mask ∧ r.pattern &&& 0xFF = r.pattern := by
  decide

/-- A word selects a row when it has the row's OP and 0 in the bits the row's class leaves unused (R81, R83). -/
theorem OpcodeRow.selects_iff {r : OpcodeRow} (hr : r ∈ opcodeTable) (w : Word) :
    r.selects w = true ↔ w &&& 0xFF = r.pattern ∧ w &&& r.cls.unused = 0 := by
  obtain ⟨hmask, hpattern⟩ := opcodeTable_masks r hr
  rw [OpcodeRow.selects, beq_iff_eq, hmask, r.cls.mask_eq_or]
  exact and_or_eq_iff hpattern r.cls.op_and_unused

/-- The words that decode are those that select a row (R83, R85). -/
theorem decode_ok_iff_selects (w : Word) :
    (∃ i, decode w = .ok i) ↔ ∃ r ∈ opcodeTable, r.selects w = true := by
  rw [← List.find?_isSome, decode]
  cases opcodeTable.find? (fun r => r.selects w) with
  | some r => simp
  | none => cases opIsListed w <;> simp

/-! ### The words of a class -/

/-- The OPs of the commands of a class (R83). -/
def FieldClass.ops (c : FieldClass) : List Nat :=
  (opcodeTable.filter fun r => r.cls = c).map fun r => r.pattern.toNat

theorem FieldClass.ops_N : FieldClass.N.ops =
    [0x00, 0x01, 0x02, 0x10, 0x11, 0x12, 0x20, 0x21, 0x30, 0x31, 0x32, 0x33, 0x34, 0x35] := rfl

theorem FieldClass.ops_R : FieldClass.R.ops = [0x36, 0x37] := rfl

theorem FieldClass.ops_L : FieldClass.L.ops = [0x18, 0x40, 0x41] := rfl

theorem FieldClass.mem_ops {c : FieldClass} {n : Nat} :
    n ∈ c.ops ↔ ∃ r ∈ opcodeTable, r.cls = c ∧ r.pattern.toNat = n := by
  simp [FieldClass.ops, and_assoc]

theorem FieldClass.exists_iff {p : FieldClass → Prop} : (∃ c, p c) ↔ p .N ∨ p .R ∨ p .L := by
  constructor
  · rintro ⟨_ | _ | _, h⟩ <;> simp [h]
  · rintro (h | h | h) <;> exact ⟨_, h⟩

/-- An OP belongs to one class only (R83). -/
theorem FieldClass.eq_of_mem_ops {c d : FieldClass} {n : Nat} (hc : n ∈ c.ops) (hd : n ∈ d.ops) : c = d := by
  have hall : ∀ m ∈ c.ops, m ∈ d.ops → c = d := by cases c <;> cases d <;> decide
  exact hall n hc hd

/-- The words that decode are those with the OP of a class and 0 in the bits that class leaves unused. -/
theorem decode_ok_iff_ops (w : Word) :
    (∃ i, decode w = .ok i) ↔ ∃ c : FieldClass, (w &&& 0xFF).toNat ∈ c.ops ∧ w &&& c.unused = 0 := by
  rw [decode_ok_iff_selects]
  constructor
  · rintro ⟨r, hr, hsel⟩
    obtain ⟨hop, hunused⟩ := (r.selects_iff hr w).mp hsel
    exact ⟨r.cls, FieldClass.mem_ops.mpr ⟨r, hr, rfl, by rw [hop]⟩, hunused⟩
  · rintro ⟨c, hmem, hunused⟩
    obtain ⟨r, hr, rfl, hop⟩ := FieldClass.mem_ops.mp hmem
    exact ⟨r, hr, (r.selects_iff hr w).mpr ⟨(BitVec.eq_of_toNat_eq hop).symm, hunused⟩⟩

/-! ### The illegal words -/

/-- R85's ranges of OP hold the bytes that are the OP of no class. -/
theorem op_unlisted_iff {n : Nat} (hn : n < 256) :
    (0x03 ≤ n ∧ n ≤ 0x0F ∨ 0x13 ≤ n ∧ n ≤ 0x17 ∨ 0x19 ≤ n ∧ n ≤ 0x1F ∨ 0x22 ≤ n ∧ n ≤ 0x2F ∨
      0x38 ≤ n ∧ n ≤ 0x3F ∨ 0x42 ≤ n ∧ n ≤ 0xFF) ↔ ¬ ∃ c : FieldClass, n ∈ c.ops := by
  simp only [FieldClass.exists_iff, FieldClass.ops_N, FieldClass.ops_R, FieldClass.ops_L, List.mem_cons,
    List.not_mem_nil, or_false]
  omega

/-- R85's illegal words: the OP is of no class, or of one that leaves unused a bit the word has set. -/
theorem illegalWord_iff (w : Word) :
    illegalWord w ↔ (¬ ∃ c : FieldClass, (w &&& 0xFF).toNat ∈ c.ops) ∨
      ∃ c : FieldClass, (w &&& 0xFF).toNat ∈ c.ops ∧ w &&& c.unused ≠ 0 := by
  have hn : (w &&& 0xFF).toNat < 256 := Nat.lt_succ_of_le Nat.and_le_right
  rw [← op_unlisted_iff hn, FieldClass.exists_iff]
  simp only [illegalWord, or_assoc, FieldClass.ops_N, FieldClass.ops_R, FieldClass.ops_L, FieldClass.unused]

/-- The words that decode are the words R85 does not list. -/
theorem decode_ok_iff_not_illegalWord (w : Word) : (∃ i, decode w = .ok i) ↔ ¬ illegalWord w := by
  rw [decode_ok_iff_ops, illegalWord_iff]
  constructor
  · rintro ⟨c, hc, hunused⟩ (hnone | ⟨d, hd, hset⟩)
    · exact hnone ⟨c, hc⟩
    · cases FieldClass.eq_of_mem_ops hc hd
      exact hset hunused
  · intro h
    push Not at h
    obtain ⟨⟨c, hc⟩, hunused⟩ := h
    exact ⟨c, hc, hunused c hc⟩

theorem decode_error_of_illegalWord {w : Word} (h : illegalWord w) : ∃ e, decode w = .error e := by
  cases hd : decode w with
  | error e => exact ⟨e, rfl⟩
  | ok i => exact absurd h ((decode_ok_iff_not_illegalWord w).mp ⟨i, hd⟩)

end Sys2Proof

namespace Sys2Proof.Machine

/-- The completion of a word that does not decode raises IllegalCommand (R238). -/
theorem State.complete_of_decode_error {s : State} {f : Flight} {e : DecodeError} (hf : s.flight = some f)
    (hd : decode f.cmd = .error e) : s.complete = .next (s.raise .illegalCommand) := by
  simp [State.complete, hf, hd]

/-- Settles O6: a row compares OP and the bits its class leaves unused, so R85's words are those that select none. -/
theorem illegalWordsEndInIllegalCommand : Obligations.IllegalWordsEndInIllegalCommand := by
  refine ⟨fun s f hf hw => ?_, decode_ok_iff_not_illegalWord⟩
  obtain ⟨e, hd⟩ := decode_error_of_illegalWord hw
  exact State.complete_of_decode_error hf hd

end Sys2Proof.Machine
end

section
/-! PROOFS of the statements about the field arithmetic (40_field_arithmetic.md): O34, O35, O50. -/

namespace Sys2Proof

/-! ### The words of a class N command -/

/-- A word is its OP together with the bits above it (R80). -/
theorem op_or_unused (w : Word) : w &&& 0xFF ||| w &&& FieldClass.N.unused = w := by
  rw [← BitVec.and_or_distrib_left, ← FieldClass.mask_eq_or]
  exact BitVec.and_allOnes

/-- R85: a word with the OP of a class N command and any other bit set is illegal. -/
theorem illegalWord_of_classN_ne {w m : Word} (hm : m.toNat ∈ FieldClass.N.ops) (hop : w &&& 0xFF = m)
    (hne : w ≠ m) : illegalWord w := by
  refine (illegalWord_iff w).mpr (.inr ⟨.N, by rwa [hop], fun hunused => hne ?_⟩)
  have hw := op_or_unused w
  rw [hunused, hop] at hw
  exact hw.symm.trans BitVec.or_zero

/-- The encoding of a class N command whose match value is m (R81, R83, R85). -/
theorem classNEncoding {i : Instr} {m : Word} (henc : encode i = m) (hdec : decode m = .ok i)
    (hm : m.toNat ∈ FieldClass.N.ops) : ClassNEncoding i m :=
  ⟨henc, hdec, fun _ hop hne => decode_error_of_illegalWord (illegalWord_of_classN_ne hm hop hne)⟩

end Sys2Proof

namespace Sys2Proof.Machine

open Polynomial

/-! ### A byte as a polynomial (R100) -/

/-- The polynomial over GF(2) a byte stands for: the coefficient of x^i is bit i (R100). -/
noncomputable def bytePoly (x : Byte) : (ZMod 2)[X] :=
  ∑ i ∈ Finset.range 8, if x.getLsbD i then X ^ i else 0

/-- A bit as a constant polynomial over GF(2). -/
noncomputable def bitPoly (b : Bool) : (ZMod 2)[X] := C (if b then 1 else 0)

/-- The reduction polynomial 0x11B (R100). -/
noncomputable def fieldPoly : (ZMod 2)[X] := X ^ 8 + X ^ 4 + X ^ 3 + X + 1

theorem coeff_bytePoly (x : Byte) (i : Nat) : (bytePoly x).coeff i = if x.getLsbD i then 1 else 0 := by
  have hterm (j : Nat) : (if x.getLsbD j then X ^ j else 0 : (ZMod 2)[X]).coeff i
      = if i = j then (if x.getLsbD j then 1 else 0) else 0 := by
    split <;> simp [coeff_X_pow]
  simp only [bytePoly, finsetSum_coeff, hterm, Finset.sum_ite_eq, Finset.mem_range]
  by_cases hi : i < 8
  · rw [if_pos hi]
  · rw [if_neg hi, BitVec.getLsbD_of_ge x i (Nat.le_of_not_lt hi)]
    rfl

theorem bytePoly_injective : Function.Injective bytePoly := by
  intro x y h
  refine BitVec.eq_of_getLsbD_eq fun i _ => ?_
  have hi := congrArg (fun p => p.coeff i) h
  simp only [coeff_bytePoly] at hi
  cases hx : x.getLsbD i <;> cases hy : y.getLsbD i <;> simp_all

theorem degree_bytePoly_lt (x : Byte) : (bytePoly x).degree < 8 := by
  refine (degree_lt_iff_coeff_zero _ 8).mpr fun i hi => ?_
  rw [coeff_bytePoly, BitVec.getLsbD_of_ge x i hi]
  rfl

theorem bytePoly_zero : bytePoly 0#8 = 0 := by
  simp [bytePoly]

/-- A byte taken or left out by a bit is the byte times the bit. -/
theorem bytePoly_ite (b : Bool) (x : Byte) : bytePoly (if b then x else 0#8) = bitPoly b * bytePoly x := by
  cases b <;> simp [bitPoly, bytePoly_zero]

/-- Addition of bytes is addition of their polynomials (R100). -/
theorem bytePoly_xor (x y : Byte) : bytePoly (x ^^^ y) = bytePoly x + bytePoly y := by
  ext i
  rw [coeff_add, coeff_bytePoly, coeff_bytePoly, coeff_bytePoly, BitVec.getLsbD_xor]
  cases x.getLsbD i <;> cases y.getLsbD i <;> decide

/-- Shifting left multiplies by x; the bit shifted out is the coefficient of x^8. -/
theorem X_mul_bytePoly (x : Byte) :
    X * bytePoly x = bytePoly (x <<< 1) + bitPoly (x.getLsbD 7) * X ^ 8 := by
  ext i
  rw [coeff_add, bitPoly, coeff_C_mul_X_pow, coeff_bytePoly, BitVec.getLsbD_shiftLeft]
  cases i with
  | zero => simp
  | succ i =>
    rw [coeff_X_mul, coeff_bytePoly]
    obtain hlt | rfl | hgt := lt_trichotomy i 7
    · simp [hlt.ne, Nat.succ_lt_succ hlt]
    · simp
    · simp [hgt.ne', BitVec.getLsbD_of_ge x i hgt]

/-- Shifting right divides by x; the remainder is bit 0. -/
theorem bytePoly_eq_add_X_mul (x : Byte) :
    bytePoly x = bitPoly (x.getLsbD 0) + X * bytePoly (x >>> 1) := by
  ext i
  rw [coeff_add, bitPoly, coeff_C, coeff_bytePoly]
  cases i with
  | zero => rw [coeff_X_mul_zero, if_pos rfl, add_zero]
  | succ i =>
    rw [coeff_X_mul, coeff_bytePoly, BitVec.getLsbD_ushiftRight, if_neg i.succ_ne_zero, zero_add, Nat.add_comm]

/-- The byte 0x1B is 0x11B without x^8 (R100, R101). -/
theorem fieldPoly_eq : fieldPoly = X ^ 8 + bytePoly 0x1B := by
  have h1B : bytePoly 0x1B = 1 + X + X ^ 3 + X ^ 4 := by simp [bytePoly, Finset.sum_range_succ]
  rw [fieldPoly, h1B]
  ring

/-- The doubling step multiplies by x modulo 0x11B (R106). -/
theorem X_mul_bytePoly_xtime (a : Byte) :
    X * bytePoly a = bytePoly (xtime a) + bitPoly (a.getLsbD 7) * fieldPoly := by
  have hfold : bytePoly (if a.getLsbD 7 then 0x1B else 0x00) = bitPoly (a.getLsbD 7) * bytePoly 0x1B :=
    bytePoly_ite _ _
  rw [X_mul_bytePoly, xtime, bytePoly_xor, hfold, fieldPoly_eq]
  linear_combination -CharTwo.add_self_eq_zero (bitPoly (a.getLsbD 7) * bytePoly 0x1B)

/-! ### The shift-and-add loop as a product (R101) -/

/-- n rounds of the loop multiply by a byte of n bits, modulo 0x11B. -/
theorem gmulLoop_poly (n : Nat) (a b : Byte) (hb : b.toNat < 2 ^ n) :
    ∃ q, bytePoly a * bytePoly b = bytePoly (gmulLoop n a b 0#8) + q * fieldPoly := by
  induction n generalizing a b with
  | zero =>
    obtain rfl : b = 0#8 := BitVec.eq_of_toNat_eq (Nat.lt_one_iff.mp hb)
    exact ⟨0, by simp [gmulLoop, bytePoly_zero]⟩
  | succ n ih =>
    have hb' : (b >>> 1).toNat < 2 ^ n := by
      rw [BitVec.toNat_ushiftRight, Nat.shiftRight_eq_div_pow]
      omega
    obtain ⟨q, hq⟩ := ih (xtime a) (b >>> 1) hb'
    refine ⟨q + bitPoly (a.getLsbD 7) * bytePoly (b >>> 1), ?_⟩
    rw [gmulLoop_succ, bytePoly_xor, bytePoly_ite, bytePoly_eq_add_X_mul b]
    linear_combination hq + bytePoly (b >>> 1) * X_mul_bytePoly_xtime a

/-- gmul is multiplication of polynomials modulo 0x11B (R100, R101). -/
theorem gmul_poly (a b : Byte) : ∃ q, bytePoly a * bytePoly b = bytePoly (gmul a b) + q * fieldPoly :=
  gmulLoop_poly 8 a b b.isLt

/-- Settles O50: each round of the loop takes one coefficient of b and multiplies a by x modulo 0x11B. -/
theorem gmulIsPolynomialProduct : Obligations.GmulIsPolynomialProduct := by
  intro a b poly hpoly
  obtain rfl : poly = bytePoly := funext hpoly
  have hadd : gadd [a, b] = a ^^^ b := by simp
  exact ⟨hadd, by rw [hadd, bytePoly_xor], gmul_poly a b⟩

/-! ### The laws of the product that follow from it (R105) -/

theorem degree_fieldPoly : fieldPoly.degree = 8 := by
  unfold fieldPoly
  compute_degree!

theorem monic_fieldPoly : fieldPoly.Monic := by
  unfold fieldPoly
  monicity!

/-- The product's polynomial is the remainder of the polynomials' product: it has degree less than 8. -/
theorem bytePoly_gmul (a b : Byte) : bytePoly (gmul a b) = (bytePoly a * bytePoly b) %ₘ fieldPoly := by
  obtain ⟨q, hq⟩ := gmul_poly a b
  have hdeg : (bytePoly (gmul a b)).degree < fieldPoly.degree :=
    degree_fieldPoly ▸ degree_bytePoly_lt (gmul a b)
  exact (div_modByMonic_unique q _ monic_fieldPoly ⟨by rw [hq, mul_comm q], hdeg⟩).2.symm

theorem gmul_comm (a b : Byte) : gmul a b = gmul b a :=
  bytePoly_injective (by rw [bytePoly_gmul, bytePoly_gmul, mul_comm])

theorem gmulLoop_zero_right (n : Nat) (a : Byte) : gmulLoop n a 0#8 0#8 = 0#8 := by
  simpa using gmulLoop_xor_right n a 0#8 0#8

theorem gmul_zero_right (a : Byte) : gmul a 0#8 = 0#8 := gmulLoop_zero_right 8 a

/-- Only the first round adds: 0x01 has one bit. -/
theorem gmul_one_right (a : Byte) : gmul a 1#8 = a := by
  have hshift : 1#8 >>> 1 = 0#8 := rfl
  change gmulLoop (7 + 1) a 1#8 0#8 = a
  rw [gmulLoop_succ, hshift, gmulLoop_zero_right]
  exact BitVec.xor_zero

theorem gmul_zero_left (a : Byte) : gmul 0#8 a = 0#8 := by rw [gmul_comm, gmul_zero_right]

theorem gmul_one_left (a : Byte) : gmul 1#8 a = a := by rw [gmul_comm, gmul_one_right]

/-! ### GF_MUL and GF_ADD -/

/-- The completion of GF_MUL, from the operands it latched (R102). -/
theorem exec_gfMul {s : State} {f : Flight} (hf : s.flight = some f) :
    exec .gfMul s = .next
      (s.writeResultByte (gmul (opndLow f.snap.opnd) (opndHigh f.snap.opnd))).succeed := by
  rw [← State.operands_of_flight hf]
  rfl

/-- The completion of GF_ADD, from the operands it latched (R104). -/
theorem exec_gfAdd {s : State} {f : Flight} (hf : s.flight = some f) :
    exec .gfAdd s = .next (s.writeResultByte (gadd (opndBytes f.snap.opnd))).succeed := by
  rw [← State.operands_of_flight hf]
  rfl

theorem gadd_opndBytes (v : Word) : gadd (opndBytes v) =
    v.extractLsb' 0 8 ^^^ v.extractLsb' 8 8 ^^^ v.extractLsb' 16 8 ^^^ v.extractLsb' 24 8 := by
  simp only [opndBytes, gadd_cons, gadd_nil, BitVec.xor_zero, BitVec.xor_assoc]

/-- Settles O34: the completion writes the product of the two latched bytes, and 0 and 1 are its corner cases. -/
theorem gfMulResult : Obligations.GfMulResult :=
  ⟨classNEncoding rfl rfl (by decide), fun _ _ hf => exec_gfMul hf,
    fun b => ⟨gmul_zero_left b, gmul_zero_right b, gmul_one_left b, gmul_one_right b⟩, rfl, rfl⟩

/-- Settles O35: the completion writes the sum of the four latched bytes, which is their XOR. -/
theorem gfAddResult : Obligations.GfAddResult := by
  refine ⟨classNEncoding rfl rfl (by decide), fun s f hf => ?_, rfl, rfl, rfl⟩
  rw [exec_gfAdd hf, gadd_opndBytes]
  rfl

end Sys2Proof.Machine
end

section
/-! PROOFS of the statements about the key schedule (41_key_schedule.md): O36, O37, O38, O40. -/

namespace Sys2Proof

/-! ### The words of a class L command -/

/-- No two rows of the table have the same match value (R83). -/
theorem opcodeTable_pattern_injective {r q : OpcodeRow} (hr : r ∈ opcodeTable) (hq : q ∈ opcodeTable)
    (h : r.pattern = q.pattern) : r = q :=
  List.inj_on_of_nodup_map (f := OpcodeRow.pattern) (by decide) hr hq h

/-- A word that selects a row decodes to the row's command, for it selects no other row (R83). -/
theorem decode_of_selects {r : OpcodeRow} (hr : r ∈ opcodeTable) {w : Word} (hw : r.selects w = true) :
    decode w = .ok (r.build (fieldRnd w) (fieldLen w)) := by
  have hsome : (opcodeTable.find? fun q => q.selects w).isSome := List.find?_isSome.mpr ⟨r, hr, hw⟩
  obtain ⟨q, hfind⟩ := Option.isSome_iff_exists.mp hsome
  have hq : q ∈ opcodeTable := List.mem_of_find?_eq_some hfind
  obtain ⟨hrop, -⟩ := (r.selects_iff hr w).mp hw
  have hqw : q.selects w = true := List.find?_some (p := fun q => OpcodeRow.selects q w) hfind
  obtain ⟨hqop, -⟩ := (q.selects_iff hq w).mp hqw
  obtain rfl : r = q := opcodeTable_pattern_injective hr hq (hrop.symm.trans hqop)
  rw [decode, hfind]

/-- R85: a word with the OP of a class and a bit set that the class leaves unused is illegal. -/
theorem illegalWord_of_mask_ne {c : FieldClass} {w m : Word} (hm : m.toNat ∈ c.ops) (hop : w &&& 0xFF = m)
    (hne : w &&& c.mask ≠ m) : illegalWord w := by
  refine (illegalWord_iff w).mpr (.inr ⟨c, by rwa [hop], fun hunused => hne ?_⟩)
  rw [c.mask_eq_or, BitVec.and_or_distrib_left, hop, hunused]
  exact BitVec.or_zero

/-- LEN, in bits [23:16], lies outside OP and the bits class L leaves unused (R80, R81). -/
theorem encodeFields_and_mask_L (op : Byte) (len : Nat) :
    encodeFields op 0 len &&& FieldClass.L.mask = op.setWidth 32 := by
  have hmask : FieldClass.L.mask =
      (0xFF : BitVec 8) ++ (0 : BitVec 8) ++ (0xF : BitVec 4) ++ (0xF : BitVec 4) ++ (0xFF : BitVec 8) := rfl
  have hop : op &&& 0xFF = op := BitVec.and_allOnes
  rw [encodeFields, hmask, BitVec.and_append, BitVec.and_append, BitVec.and_append, BitVec.and_append, hop]
  simp [BitVec.setWidth_eq_append]

/-- The word of a class L command decodes to the command with the LEN it was encoded with (R83, R84). -/
theorem decode_encodeFields_L {r : OpcodeRow} (hr : r ∈ opcodeTable) (hc : r.cls = .L) {op : Byte}
    (hop : r.pattern = op.setWidth 32) {len : Nat} (hl : len < 256) :
    decode (encodeFields op 0 len) = .ok (r.build 0 len) := by
  obtain ⟨hmask, -⟩ := opcodeTable_masks r hr
  obtain ⟨-, hrnd, -, hlen, -⟩ := Laws.fields_of_encodeFields op 0 len (by decide) hl
  have hsel : r.selects (encodeFields op 0 len) = true := by
    rw [OpcodeRow.selects, beq_iff_eq, hmask, hc, encodeFields_and_mask_L, hop]
  rw [decode_of_selects hr hsel, hrnd, hlen]

/-- The encoding of the class L commands of a row (R81, R83, R85). -/
theorem classLEncoding {r : OpcodeRow} (hr : r ∈ opcodeTable) (hc : r.cls = .L) {op : Byte}
    (hop : r.pattern = op.setWidth 32) (henc : ∀ n, encode (r.build 0 n) = encodeFields op 0 n) :
    ClassLEncoding (r.build 0) r.pattern := by
  refine ⟨fun n hn => ?_, fun w hw hne => ?_⟩
  · have hword : r.pattern ||| BitVec.ofNat 32 n <<< 16 = encodeFields op 0 n := by
      rw [encodeFields_rnd_zero op hn, hop, BitVec.or_comm]
    rw [hword]
    exact ⟨henc n, decode_encodeFields_L hr hc hop hn⟩
  · have hmem : r.pattern.toNat ∈ FieldClass.L.ops := FieldClass.mem_ops.mpr ⟨r, hr, hc, rfl⟩
    exact decode_error_of_illegalWord (illegalWord_of_mask_ne hmem hw hne)

end Sys2Proof

namespace Sys2Proof.Machine

/-! ### ROT_WORD -/

/-- Byte j of the rotated word is byte j + 1, counted modulo 4 (R120). -/
@[simp] theorem byteOf_rotWord (v : Word) (j : Fin 4) : byteOf (rotWord v) j = byteOf v (j + 1) := by
  apply BitVec.eq_of_getLsbD_eq
  intro i hi
  simp only [byteOf, rotWord, BitVec.getLsbD_extractLsb', BitVec.getLsbD_append]
  fin_cases j <;> grind

theorem rotWord_wordOf (b0 b1 b2 b3 : Byte) : rotWord (wordOf b0 b1 b2 b3) = wordOf b1 b2 b3 b0 := by
  refine word_ext fun j => ?_
  rw [byteOf_rotWord]
  fin_cases j <;> simp

/-- Four rotations take each byte once around (R123). -/
theorem rotWord_four_times (v : Word) : rotWord (rotWord (rotWord (rotWord v))) = v := by
  refine word_ext fun j => ?_
  have hj : j + 1 + 1 + 1 + 1 = j := by omega
  simp only [byteOf_rotWord, hj]

/-- The completion of ROT_WORD, from the operand it latched (R123). -/
theorem exec_rotWord {s : State} {f : Flight} (hf : s.flight = some f) :
    exec .rotWord s = .next (s.writeResult (rotWord f.snap.opnd)).succeed := by
  rw [← State.operands_of_flight hf]
  rfl

/-- Settles O36: the completion writes the latched word rotated, which moves its bytes around by one place. -/
theorem rotWordResult : Obligations.RotWordResult :=
  ⟨classNEncoding rfl rfl (by decide), fun _ _ hf => exec_rotWord hf, rotWord_wordOf,
    fun v => ⟨rfl, rotWord_four_times v⟩, rfl⟩

/-! ### SUB_WORD -/

/-- Each byte is substituted in its place (R121). -/
@[simp] theorem byteOf_subWord (v : Word) (j : Fin 4) : byteOf (subWord v) j = sboxRom (byteOf v j) := by
  fin_cases j <;> simp [subWord]

theorem subWord_wordOf (b0 b1 b2 b3 : Byte) :
    subWord (wordOf b0 b1 b2 b3) = wordOf (sboxRom b0) (sboxRom b1) (sboxRom b2) (sboxRom b3) := by
  simp [subWord]

/-- The completion of SUB_WORD, from the operand it latched (R124). -/
theorem exec_subWord {s : State} {f : Flight} (hf : s.flight = some f) :
    exec .subWord s = .next (s.writeResult (subWord f.snap.opnd)).succeed := by
  rw [← State.operands_of_flight hf]
  rfl

/-- Settles O37: the completion writes the latched word with each byte looked up in its place. -/
theorem subWordResult : Obligations.SubWordResult :=
  ⟨classNEncoding rfl rfl (by decide), fun _ _ hf => exec_subWord hf, subWord_wordOf, byteOf_subWord,
    rfl, rfl, rfl⟩

/-! ### RCON -/

/-- Doubling m + n times is doubling m times, then n times. -/
theorem rconLoop_add (m n : Nat) (c : Byte) : rconLoop (m + n) c = rconLoop n (rconLoop m c) := by
  induction m generalizing c with
  | zero => rw [Nat.zero_add, rconLoop]
  | succ m ih => rw [Nat.succ_add, rconLoop, rconLoop, ih]

/-- One more doubling, done last. -/
theorem rconLoop_succ (n : Nat) (c : Byte) : rconLoop (n + 1) c = gmul (rconLoop n c) 0x02 :=
  rconLoop_add n 1 c

/-- The entry m + 1 is 1 doubled m times (R122). -/
theorem rconRom_eq_rconLoop {n : Byte} {m : Nat} (h : n.toNat = m + 1) : rconRom n = rconLoop m 0x01 := by
  have hne : n ≠ 0 := by
    rintro rfl
    exact absurd h m.succ_ne_zero.symm
  rw [rconRom, if_neg hne, h, Nat.add_sub_cancel]

theorem rconLoop_fifty : rconLoop 50 0x01 = 0x8d := by decide +kernel

/-- The order of 0x02: 51 doublings give 1 back (R122). -/
theorem rconLoop_fiftyOne : rconLoop 51 0x01 = 0x01 := by
  rw [rconLoop_succ, rconLoop_fifty]
  rfl

/-- Each entry from the second on is the double of the one before (R122). -/
theorem rconRom_add_one {n : Byte} (h0 : n ≠ 0) (h255 : n ≠ 255) :
    rconRom (n + 1) = gmul (rconRom n) 0x02 := by
  obtain ⟨m, hm⟩ : ∃ m, n.toNat = m + 1 := ⟨n.toNat - 1, by bv_omega⟩
  have hm' : (n + 1).toNat = m + 1 + 1 := by bv_omega
  rw [rconRom_eq_rconLoop hm, rconRom_eq_rconLoop hm', rconLoop_succ]

/-- The period 51 (R122). -/
theorem rconRom_add_fiftyOne {n : Nat} (h0 : n ≠ 0) (hn : n < 205) :
    rconRom (BitVec.ofNat 8 (n + 51)) = rconRom (BitVec.ofNat 8 n) := by
  obtain ⟨m, rfl⟩ := Nat.exists_eq_succ_of_ne_zero h0
  have hm : (BitVec.ofNat 8 (m + 1)).toNat = m + 1 := Nat.mod_eq_of_lt (by omega)
  have hm' : (BitVec.ofNat 8 (m + 1 + 51)).toNat = 51 + m + 1 := by
    rw [BitVec.toNat_ofNat, Nat.mod_eq_of_lt (by omega)]
    omega
  rw [rconRom_eq_rconLoop hm', rconRom_eq_rconLoop hm, rconLoop_add, rconLoop_fiftyOne]

/-- The ROM's last entry, four periods from entry 51 (R125). -/
theorem rconRom_255 : rconRom 255 = rconRom 51 :=
  calc rconRom 255 = rconRom 204 := rconRom_add_fiftyOne (n := 204) (by decide) (by decide)
    _ = rconRom 153 := rconRom_add_fiftyOne (n := 153) (by decide) (by decide)
    _ = rconRom 102 := rconRom_add_fiftyOne (n := 102) (by decide) (by decide)
    _ = rconRom 51 := rconRom_add_fiftyOne (n := 51) (by decide) (by decide)

/-- The completion of RCON, from the operand it latched (R125). -/
theorem exec_rcon {s : State} {f : Flight} (hf : s.flight = some f) :
    exec .rcon s = .next (s.writeResultByte (rconRom (opndLow f.snap.opnd))).succeed := by
  rw [← State.operands_of_flight hf]
  rfl

/-- Settles O38: the ROM's entry n + 1 is 1 doubled n times, and 51 doublings give 1 back. -/
theorem rconResult : Obligations.RconResult := by
  have h51 : rconRom 51 = 0x8d := (rconRom_eq_rconLoop rfl).trans rconLoop_fifty
  refine ⟨classNEncoding rfl rfl (by decide), fun _ _ hf => exec_rcon hf, rfl, rfl,
    fun _ h0 h255 => rconRom_add_one h0 h255, fun n h0 => rconRom_add_fiftyOne h0 n.isLt,
    rfl, h51, rconRom_add_fiftyOne (n := 1) (by decide) (by decide), rconRom_255.trans h51⟩

/-! ### The expansion -/

/-- Making m more words keeps those made before; they stand m places further down (R126). -/
theorem getD_expandWords_add (k : Key) (n m j : Nat) :
    (expandWords k (n + m)).getD (j + m) 0 = (expandWords k n).getD j 0 := by
  induction m with
  | zero => rfl
  | succ m ih => rw [← Nat.add_assoc, ← Nat.add_assoc, expandWords, List.getD_cons_succ, ih]

/-- Once w[0..7+n] are made, the list's entry j is the schedule's word n + 7 - j (R126). -/
theorem getElem_keyExpansion (k : Key) {n i j : Nat} (hi : i + j = n + 7) (hn : n ≤ 52) (hlt : i < 60) :
    (keyExpansion k)[i] = (expandWords k n).getD j 0 := by
  obtain ⟨m, hm⟩ := Nat.exists_eq_add_of_le hn
  have hj : 59 - i = j + m := by omega
  rw [← getD_expandWords_add k n m j, ← hm, ← hj]
  exact Vector.getElem_ofFn hlt

/-- Words 0..7 of the schedule are the key (R126). -/
theorem keyExpansion_key (k : Key) (i : Fin 8) : (keyExpansion k)[i.val] = k[i] := by
  rw [getElem_keyExpansion k (n := 0) (j := 7 - i.val) (by omega) (by decide), expandWords]
  fin_cases i <;> rfl

/-- Each further word is made from the word eight before and the word before (R126). -/
theorem keyExpansion_recurrence (k : Key) {i : Nat} (h8 : 8 ≤ i) (h60 : i < 60) :
    (keyExpansion k)[i] = (keyExpansion k)[i - 8] ^^^ expandTemp i (keyExpansion k)[i - 1] := by
  obtain ⟨n, rfl⟩ := Nat.exists_eq_add_of_le' h8
  rw [getElem_keyExpansion k (n := n + 1) (j := 0) (by omega) (by omega),
    getElem_keyExpansion k (i := n + 8 - 8) (n := n) (j := 7) (by omega) (by omega),
    getElem_keyExpansion k (i := n + 8 - 1) (n := n) (j := 0) (by omega) (by omega), expandWords,
    List.getD_cons_zero]

/-! ### KEY_EXPAND -/

theorem classLEncoding_keyExpand : ClassLEncoding .keyExpand 0x00000018 :=
  classLEncoding (r := opcodeTable[6]) (op := 0x18) (List.getElem_mem _) rfl rfl fun _ => rfl

/-- The whole state a schedule's completion leaves (R34). -/
theorem State.writeSchedule_succeed (s : State) (w : Schedule) : (s.writeSchedule w).succeed =
    { s with sched := w, keyValid := true, errcode := 0, flight := none } := rfl

/-- The completion of KEY_EXPAND with LEN = 32, from the key it latched (R127). -/
theorem exec_keyExpand {s : State} {f : Flight} (hf : s.flight = some f) :
    exec (.keyExpand 32) s = .next
      { s with sched := keyExpansion f.snap.key, keyValid := true, errcode := 0, flight := none } := by
  rw [← State.operands_of_flight hf, exec, execKeyExpand, if_neg (not_not.mpr rfl),
    State.writeSchedule_succeed]

/-- The completion of KEY_EXPAND with another LEN (R127, R234). -/
theorem exec_keyExpand_of_ne {len : Nat} (s : State) (hl : len ≠ 32) :
    exec (.keyExpand len) s = .next (s.raise .invalidKeyLength) :=
  if_pos hl

/-- Round key 0 is the first half of the key (R126). -/
theorem roundKey_keyExpansion_zero (k : Key) : roundKey (keyExpansion k) 0 = #v[k[0], k[1], k[2], k[3]] := by
  have hword (c : Fin 4) : (roundKey (keyExpansion k) 0)[c] = k[c.val] := by
    rw [getElem_roundKey c (keyExpansion k) 0 (by decide)]
    simpa using keyExpansion_key k ⟨c, by omega⟩
  refine Vector.ext fun c hc => (hword ⟨c, hc⟩).trans ?_
  interval_cases c <;> rfl

/-- Round key 14 of R127's example. -/
theorem roundKey_example_fourteen :
    roundKey (keyExpansion #v[0x603deb10, 0x15ca71be, 0x2b73aef0, 0x857d7781,
      0x1f352c07, 0x3b6108d7, 0x2d9810a3, 0x0914dff4]) 14
      = #v[0xfe4890d1, 0xe6188d0b, 0x046df344, 0x706c631e] := by decide +kernel

/-- Settles O40: LEN decides between the error and the whole expansion, and the list of words grows at its head, so
that each word and the two it is made from stand at known places. -/
theorem keyExpandResult : Obligations.KeyExpandResult := by
  refine ⟨classLEncoding_keyExpand, fun s f hf => ⟨exec_keyExpand hf, fun _ hl => exec_keyExpand_of_ne s hl⟩,
    fun k => ⟨keyExpansion_key k, fun _ h8 h60 => keyExpansion_recurrence k h8 h60⟩, ?_⟩
  rintro w rfl
  exact ⟨roundKey_keyExpansion_zero _, roundKey_example_fourteen⟩

end Sys2Proof.Machine
end

section
/-! PROOFS of the statements about the round transforms (42_round_transform.md): O39, O41, O42, O43, O44, O45,
O54. -/

namespace Sys2Proof

/-! ### The words of a class R command -/

/-- RND, in bits [11:8], lies outside OP and the bits class R leaves unused (R80, R81). -/
theorem encodeFields_and_mask_R (op : Byte) (rnd : Nat) :
    encodeFields op rnd 0 &&& FieldClass.R.mask = op.setWidth 32 := by
  have hmask : FieldClass.R.mask =
      (0xFF : BitVec 8) ++ (0xFF : BitVec 8) ++ (0xF : BitVec 4) ++ (0 : BitVec 4) ++ (0xFF : BitVec 8) := rfl
  have hop : op &&& 0xFF = op := BitVec.and_allOnes
  rw [encodeFields, hmask, BitVec.and_append, BitVec.and_append, BitVec.and_append, BitVec.and_append, hop]
  simp [BitVec.setWidth_eq_append]

/-- The word of a class R command decodes to the command with the RND it was encoded with (R83, R84). -/
theorem decode_encodeFields_R {r : OpcodeRow} (hr : r ∈ opcodeTable) (hc : r.cls = .R) {op : Byte}
    (hop : r.pattern = op.setWidth 32) {rnd : Nat} (hn : rnd < 16) :
    decode (encodeFields op rnd 0) = .ok (r.build rnd 0) := by
  obtain ⟨hmask, -⟩ := opcodeTable_masks r hr
  obtain ⟨-, hrnd, -, hlen, -⟩ := Laws.fields_of_encodeFields op rnd 0 hn (by decide)
  have hsel : r.selects (encodeFields op rnd 0) = true := by
    rw [OpcodeRow.selects, beq_iff_eq, hmask, hc, encodeFields_and_mask_R, hop]
  rw [decode_of_selects hr hsel, hrnd, hlen]

/-- The encoding of the class R commands of a row (R81, R83, R85). -/
theorem classREncoding {r : OpcodeRow} (hr : r ∈ opcodeTable) (hc : r.cls = .R) {op : Byte}
    (hop : r.pattern = op.setWidth 32) (henc : ∀ n, encode (r.build n 0) = encodeFields op n 0) :
    ClassREncoding (fun n => r.build n 0) r.pattern := by
  refine ⟨fun n hn => ?_, fun w hw hne => ?_⟩
  · have hword : r.pattern ||| BitVec.ofNat 32 n <<< 8 = encodeFields op n 0 := by
      rw [encodeFields_len_zero op hn, hop, BitVec.or_comm]
    rw [hword]
    exact ⟨henc n, decode_encodeFields_R hr hc hop hn⟩
  · have hmem : r.pattern.toNat ∈ FieldClass.R.ops := FieldClass.mem_ops.mpr ⟨r, hr, hc, rfl⟩
    exact decode_error_of_illegalWord (illegalWord_of_mask_ne hmem hw hne)

end Sys2Proof

namespace Sys2Proof.Machine

/-! ### SBOX and INV_SBOX -/

/-- INV_SBOX undoes SBOX (R37). -/
@[simp] theorem invSboxRom_sboxRom (b : Byte) : invSboxRom (sboxRom b) = b := by
  revert b
  decide +kernel

/-- SBOX undoes INV_SBOX: on the finite set of bytes a left inverse is a right inverse (R37). -/
@[simp] theorem sboxRom_invSboxRom (b : Byte) : sboxRom (invSboxRom b) = b := by
  have hleft : Function.LeftInverse invSboxRom sboxRom := invSboxRom_sboxRom
  exact hleft.rightInverse_of_surjective (Finite.surjective_of_injective hleft.injective) b

/-- SBOX has no fixed point (R150). -/
theorem sboxRom_ne_self (b : Byte) : sboxRom b ≠ b := by
  revert b
  decide +kernel

/-- The completion of SBOX, from the operand it latched (R150). -/
theorem exec_sbox {s : State} {f : Flight} (hf : s.flight = some f) :
    exec .sbox s = .next (s.writeResultByte (sboxRom (opndLow f.snap.opnd))).succeed := by
  rw [← State.operands_of_flight hf]
  rfl

/-- The completion of INV_SBOX, from the operand it latched (R151). -/
theorem exec_invSbox {s : State} {f : Flight} (hf : s.flight = some f) :
    exec .invSbox s = .next (s.writeResultByte (invSboxRom (opndLow f.snap.opnd))).succeed := by
  rw [← State.operands_of_flight hf]
  rfl

/-- Settles O39: the completion writes the table's entry at the latched byte. -/
theorem sboxLookupResults : Obligations.SboxLookupResults :=
  ⟨classNEncoding rfl rfl (by decide), classNEncoding rfl rfl (by decide),
    fun _ _ hf => ⟨exec_sbox hf, exec_invSbox hf⟩, fun b => ⟨sboxRom_ne_self b, invSboxRom_sboxRom b⟩,
    rfl, rfl, rfl, rfl, rfl, rfl⟩

/-! ### The completion of a transform -/

/-- The whole state a State command's completion leaves (R23). -/
theorem State.writeBlock_succeed (s : State) (b : Block) :
    (s.writeBlock b).succeed = { s with block := b, errcode := 0, flight := none } := rfl

/-- A command that writes a transform g of its State writes g of the State it latched (R23, R215). -/
theorem exec_transform {i : Instr} {g : Block → Block}
    (hi : ∀ s, exec i s = .next (s.writeBlock (g s.operands.block)).succeed) {s : State} {f : Flight}
    (hf : s.flight = some f) :
    exec i s = .next { s with block := g f.snap.block, errcode := 0, flight := none } := by
  rw [hi, State.operands_of_flight hf, State.writeBlock_succeed]

/-! ### SUB_BYTES and INV_SUB_BYTES -/

/-- Each direction of SubBytes undoes the other (R153, R154). -/
theorem subBytes_subBytes_not (x : Block) (inv : Bool) : subBytes (subBytes x inv) (!inv) = x :=
  block_ext fun r c => by cases inv <;> simp

/-- Settles O41: the completion writes the latched State with each byte looked up in its place, and the tables undo
each other. -/
theorem subBytesResults : Obligations.SubBytesResults :=
  ⟨classNEncoding rfl rfl (by decide), classNEncoding rfl rfl (by decide),
    fun _ _ hf => ⟨exec_transform (g := (subBytes · false)) (fun _ => rfl) hf,
      exec_transform (g := (subBytes · true)) (fun _ => rfl) hf⟩,
    fun x r c => ⟨byteAt_subBytes x false r c, byteAt_subBytes x true r c⟩,
    fun x => ⟨subBytes_subBytes_not x false, subBytes_subBytes_not x true⟩, rfl, rfl, rfl, rfl⟩

/-! ### SHIFT_ROWS and INV_SHIFT_ROWS -/

/-- SHIFT_ROWS takes the byte from r columns further right (R155). -/
theorem byteAt_shiftRows_left (x : Block) {r c d : Fin 4} (h : d.val = (c.val + r.val) % 4) :
    byteAt (shiftRows x false) r c = byteAt x r d := by
  obtain rfl : d = c + r := Fin.ext h
  exact byteAt_shiftRows x false r c

/-- INV_SHIFT_ROWS takes the byte from r columns further left (R155). -/
theorem byteAt_shiftRows_right (x : Block) {r c d : Fin 4} (h : d.val = (c.val + 4 - r.val) % 4) :
    byteAt (shiftRows x true) r c = byteAt x r d := by
  obtain rfl : d = c - r := by omega
  exact byteAt_shiftRows x true r c

/-- Rows of one value stay as they are (R156). -/
theorem shiftRows_of_constant_rows {x : Block} (h : ∀ r c, byteAt x r c = byteAt x r 0) (inv : Bool) :
    shiftRows x inv = x :=
  block_ext fun r c => by cases inv <;> simp [h r]

/-- Each direction of ShiftRows undoes the other (R156, R157). -/
theorem shiftRows_shiftRows_not (x : Block) (inv : Bool) : shiftRows (shiftRows x inv) (!inv) = x :=
  block_ext fun r c => by cases inv <;> simp

/-- Four rotations by r places take a row r times around (R156). -/
theorem shiftRows_four_times (x : Block) :
    shiftRows (shiftRows (shiftRows (shiftRows x false) false) false) false = x := by
  refine block_ext fun r c => ?_
  have hc : c + r + r + r + r = c := by omega
  simp [hc]

/-- Three rotations by r places left are one by r places right (R157). -/
theorem shiftRows_three_times (x : Block) :
    shiftRows x true = shiftRows (shiftRows (shiftRows x false) false) false := by
  refine block_ext fun r c => ?_
  have hc : c - r = c + r + r + r := by omega
  simp [hc]

/-- A byte's value does not depend on its place, so ShiftRows and SubBytes commute (R156). -/
theorem subBytes_shiftRows (x : Block) (inv inv' : Bool) :
    subBytes (shiftRows x inv') inv = shiftRows (subBytes x inv) inv' :=
  block_ext fun r c => by cases inv' <;> simp

/-- Settles O42: the completion writes the latched State with its rows rotated, and columns count modulo 4. -/
theorem shiftRowsResults : Obligations.ShiftRowsResults :=
  ⟨classNEncoding rfl rfl (by decide), classNEncoding rfl rfl (by decide),
    fun _ _ hf => ⟨exec_transform (g := (shiftRows · false)) (fun _ => rfl) hf,
      exec_transform (g := (shiftRows · true)) (fun _ => rfl) hf⟩,
    fun x _ _ _ => ⟨byteAt_shiftRows_left x, byteAt_shiftRows_right x⟩,
    fun _ h => shiftRows_of_constant_rows h false,
    fun x => ⟨shiftRows_shiftRows_not x false, shiftRows_shiftRows_not x true, shiftRows_four_times x,
      shiftRows_three_times x, fun inv => subBytes_shiftRows x inv false⟩, rfl, rfl⟩

/-! ### The matrix product (R159) -/

/-- A byte of MixColumns as the rule writes it (R159). -/
theorem byteAt_mixColumns_eq_gadd (x : Block) (inv : Bool) (r c : Fin 4) :
    byteAt (mixColumns x inv) r c =
      gadd ((List.finRange 4).map fun j => gmul (mixCoef inv r j) (byteAt x j c)) :=
  byteAt_blockOf _ r c

/-- MixColumns is linear over XOR, for gmul is (R159). -/
theorem mixColumns_addRoundKey (x y : Block) (inv : Bool) :
    mixColumns (addRoundKey x y) inv = addRoundKey (mixColumns x inv) (mixColumns y inv) := by
  refine block_ext fun r c => ?_
  simp only [byteAt_mixColumns, byteAt_addRoundKey, gmul_xor_right]
  ac_rfl

/-- A column of MixColumns is made of the same column alone (R159). -/
theorem getElem_mixColumns_congr {x y : Block} {c : Fin 4} (inv : Bool) (h : x[c] = y[c]) :
    (mixColumns x inv)[c] = (mixColumns y inv)[c] := by
  have hbyte (j : Fin 4) : byteAt x j c = byteAt y j c := congrArg (byteOf · j) h
  refine word_ext fun r => ?_
  change byteAt (mixColumns x inv) r c = byteAt (mixColumns y inv) r c
  simp only [byteAt_mixColumns, hbyte]

/-- Settles O54: each byte is the sum of products by definition, and gmul is linear. -/
theorem mixColumnsIsLinear : Obligations.MixColumnsIsLinear := fun x y inv =>
  ⟨mixColumns_addRoundKey x y inv, byteAt_mixColumns_eq_gadd x inv, fun _ => getElem_mixColumns_congr inv⟩

/-! ### MIX_COLUMNS and INV_MIX_COLUMNS -/

/-- Row r of the matrix of the direction `inv` times a column of four bytes (R158, R159). -/
def mixRow (inv : Bool) (r : Fin 4) (x0 x1 x2 x3 : Byte) : Byte :=
  gmul (mixCoef inv r 0) x0 ^^^ gmul (mixCoef inv r 1) x1 ^^^ gmul (mixCoef inv r 2) x2 ^^^
    gmul (mixCoef inv r 3) x3

/-- The byte of MixColumns in row r, from the bytes of its column (R159). -/
theorem byteAt_mixColumns_of_column {x : Block} {c : Fin 4} {x0 x1 x2 x3 : Byte}
    (h : x[c] = wordOf x0 x1 x2 x3) (inv : Bool) (r : Fin 4) :
    byteAt (mixColumns x inv) r c = mixRow inv r x0 x1 x2 x3 := by
  have hbyte (j : Fin 4) : byteAt x j c = byteOf (wordOf x0 x1 x2 x3) j := congrArg (byteOf · j) h
  simp [hbyte, mixRow]

/-- A column of MixColumns, its four bytes put together (R159). -/
theorem getElem_mixColumns {x : Block} {c : Fin 4} {x0 x1 x2 x3 : Byte} (h : x[c] = wordOf x0 x1 x2 x3)
    (inv : Bool) : (mixColumns x inv)[c] = wordOf (mixRow inv 0 x0 x1 x2 x3) (mixRow inv 1 x0 x1 x2 x3)
      (mixRow inv 2 x0 x1 x2 x3) (mixRow inv 3 x0 x1 x2 x3) := by
  refine word_ext fun r => (byteAt_mixColumns_of_column h inv r).trans ?_
  fin_cases r <;> simp

/-- The coefficients of each row of both matrices add to 1 (R160, R161). -/
theorem mixCoef_row_sum : ∀ (inv : Bool) (r : Fin 4),
    mixCoef inv r 0 ^^^ mixCoef inv r 1 ^^^ mixCoef inv r 2 ^^^ mixCoef inv r 3 = 1#8 := by
  decide

/-- Four equal bytes give that byte in every row, for the coefficients of a row add to 1. -/
theorem mixRow_of_equal_bytes (inv : Bool) (r : Fin 4) (b : Byte) : mixRow inv r b b b b = b := by
  rw [mixRow, ← gmul_xor_left, ← gmul_xor_left, ← gmul_xor_left, mixCoef_row_sum, gmul_one_left]

/-- A column of four equal bytes stays (R160, R161). -/
theorem getElem_mixColumns_of_equal_bytes {x : Block} {c : Fin 4} {b : Byte} (h : x[c] = wordOf b b b b)
    (inv : Bool) : (mixColumns x inv)[c] = x[c] := by
  simp only [getElem_mixColumns h, mixRow_of_equal_bytes, h]

section
open Polynomial

/-- gmul is associative, for the product of polynomials modulo 0x11B is (R100, R105). -/
theorem gmul_assoc (a b c : Byte) : gmul (gmul a b) c = gmul a (gmul b c) := by
  obtain ⟨p, hp⟩ := gmul_poly a b
  obtain ⟨q, hq⟩ := gmul_poly b c
  refine bytePoly_injective ?_
  rw [bytePoly_gmul (gmul a b) c, bytePoly_gmul a (gmul b c)]
  refine modByMonic_eq_of_dvd_sub monic_fieldPoly ⟨bytePoly a * q - bytePoly c * p, ?_⟩
  linear_combination bytePoly a * hq - bytePoly c * hp

end

/-- The entry in row r and column k of the product of the two matrices of R158, the one of the direction `inv` on
the right. -/
def mixCoefProduct (inv : Bool) (r k : Fin 4) : Byte :=
  mixRow (!inv) r (mixCoef inv 0 k) (mixCoef inv 1 k) (mixCoef inv 2 k) (mixCoef inv 3 k)

/-- The two matrices are inverses of each other (R158). -/
theorem mixCoefProduct_eq_one : ∀ (inv : Bool) (r k : Fin 4),
    mixCoefProduct inv r k = if r = k then 1#8 else 0#8 := by
  decide

/-- MixColumns in one direction, then in the other, multiplies by the product of the two matrices. -/
theorem byteAt_mixColumns_mixColumns_not (x : Block) (inv : Bool) (r c : Fin 4) :
    byteAt (mixColumns (mixColumns x inv) (!inv)) r c =
      gmul (mixCoefProduct inv r 0) (byteAt x 0 c) ^^^ gmul (mixCoefProduct inv r 1) (byteAt x 1 c) ^^^
        gmul (mixCoefProduct inv r 2) (byteAt x 2 c) ^^^ gmul (mixCoefProduct inv r 3) (byteAt x 3 c) := by
  simp only [byteAt_mixColumns, mixCoefProduct, mixRow, gmul_xor_left, gmul_xor_right, gmul_assoc]
  ac_rfl

/-- Each direction of MixColumns undoes the other (R160, R161). -/
theorem mixColumns_mixColumns_not (x : Block) (inv : Bool) : mixColumns (mixColumns x inv) (!inv) = x := by
  refine block_ext fun r c => ?_
  rw [byteAt_mixColumns_mixColumns_not]
  fin_cases r <;> simp [mixCoefProduct_eq_one, gmul_one_left, gmul_zero_left]

/-- Settles O43: the completion writes the latched State with each column multiplied, and the product of the two
matrices is the identity. -/
theorem mixColumnsResults : Obligations.MixColumnsResults :=
  ⟨classNEncoding rfl rfl (by decide), classNEncoding rfl rfl (by decide),
    fun _ _ hf => ⟨exec_transform (g := (mixColumns · false)) (fun _ => rfl) hf,
      exec_transform (g := (mixColumns · true)) (fun _ => rfl) hf⟩,
    fun _ _ _ _ _ _ _ h => ⟨fun hy => hy ▸ getElem_mixColumns h false, fun hy => hy ▸ getElem_mixColumns h true⟩,
    fun _ _ _ inv h => getElem_mixColumns_of_equal_bytes h inv,
    fun x => ⟨mixColumns_mixColumns_not x false, mixColumns_mixColumns_not x true⟩, rfl, rfl, rfl, rfl⟩

/-! ### ADD_ROUND_KEY and ADD_ROUND_KEY_IMC -/

/-- A command that XORs g of round key n into the State completes in one of three ways, by the round index and the
KEY_VALID it latched (R163, R164, R233). -/
theorem exec_roundKeyCommand {i : Nat → Instr} {g : Block → Block}
    (hi : ∀ n s, exec (i n) s =
      if 14 < n then .next (s.raise .invalidRound)
      else if s.operands.keyValid = false then .next (s.raise .noKeySchedule)
      else .next (s.writeBlock (addRoundKey s.operands.block (g (roundKey s.operands.sched n)))).succeed)
    {s : State} {f : Flight} (n : Nat) (hf : s.flight = some f) :
    (14 < n → exec (i n) s = .next { s with errcode := 4, flight := none }) ∧
    (n ≤ 14 → f.snap.keyValid = false → exec (i n) s = .next { s with errcode := 3, flight := none }) ∧
    (n ≤ 14 → f.snap.keyValid = true → exec (i n) s = .next
      { s with
        block := addRoundKey f.snap.block (g (roundKey f.snap.sched n)), errcode := 0, flight := none }) := by
  rw [hi, State.operands_of_flight hf]
  refine ⟨fun hn => if_pos hn, fun hn hk => ?_, fun hn hk => ?_⟩
  · rw [if_neg (Nat.not_lt.mpr hn), if_pos hk]
    rfl
  · rw [if_neg (Nat.not_lt.mpr hn), if_neg (by simp [hk]), State.writeBlock_succeed]

theorem classREncoding_addRoundKey : ClassREncoding .addRoundKey 0x00000036 :=
  classREncoding (r := opcodeTable[15]) (op := 0x36) (List.getElem_mem _) rfl rfl fun _ => rfl

theorem classREncoding_addRoundKeyImc : ClassREncoding .addRoundKeyImc 0x00000037 :=
  classREncoding (r := opcodeTable[16]) (op := 0x37) (List.getElem_mem _) rfl rfl fun _ => rfl

/-- A byte of round key n (R29). -/
theorem byteAt_roundKey (w : Schedule) {n : Nat} (hn : n ≤ 14) (r c : Fin 4) :
    byteAt (roundKey w n) r c = byteOf w[4 * n + c.val] r :=
  congrArg (byteOf · r) (getElem_roundKey c w n hn)

/-- Settles O44: the round index, then KEY_VALID, decide between the two errors and the XOR, which undoes itself. -/
theorem addRoundKeyResult : Obligations.AddRoundKeyResult := by
  have hkey := roundKey_keyExpansion_zero knownAnswerKey
  refine ⟨classREncoding_addRoundKey,
    fun _ _ n hf => exec_roundKeyCommand (g := id) (fun _ _ => rfl) n hf,
    fun x k r c => ⟨byteAt_addRoundKey x k r c, getElem_addRoundKey x k c, addRoundKey_addRoundKey x k⟩,
    fun w n hn r c => ⟨byteAt_roundKey w hn r c, getElem_roundKey c w n hn⟩, hkey, ?_⟩
  rw [hkey]
  rfl

/-- Round key 1 is the second half of the key (R126). -/
theorem roundKey_keyExpansion_one (k : Key) : roundKey (keyExpansion k) 1 = #v[k[4], k[5], k[6], k[7]] := by
  have hword (c : Fin 4) : (roundKey (keyExpansion k) 1)[c] = k[4 + c.val] := by
    rw [getElem_roundKey c (keyExpansion k) 1 (by decide)]
    exact keyExpansion_key k ⟨4 + c.val, by omega⟩
  refine Vector.ext fun c hc => (hword ⟨c, hc⟩).trans ?_
  interval_cases c <;> rfl

/-- Settles O45: the same checks as ADD_ROUND_KEY's, then the XOR with the round key mixed, which is linear. -/
theorem addRoundKeyImcResult : Obligations.AddRoundKeyImcResult := by
  have hkey := roundKey_keyExpansion_one knownAnswerKey
  refine ⟨classREncoding_addRoundKeyImc,
    fun _ _ n hf => exec_roundKeyCommand (g := (mixColumns · true)) (fun _ _ => rfl) n hf,
    fun x k => mixColumns_addRoundKey x k true, hkey, ?_⟩
  rw [hkey]
  exact ⟨rfl, rfl⟩

end Sys2Proof.Machine
end

section
/-! PROOFS of the statements about the cipher engine (43_cipher_engine.md): O46, O47. -/

namespace Sys2Proof.Machine

/-! ### The completion of a block command -/

/-- A command that applies g, under the latched schedule, to the State completes in one of three ways, by its LEN and
the KEY_VALID it latched (R191, R193, R233). -/
theorem exec_blockCommand {i : Nat → Instr} {g : Schedule → Block → Block}
    (hi : ∀ len s, exec (i len) s =
      if len ≠ 16 then .next (s.raise .invalidBlockLength)
      else if s.operands.keyValid = false then .next (s.raise .noKeySchedule)
      else .next (s.writeBlock (g s.operands.sched s.operands.block)).succeed)
    {s : State} {f : Flight} (hf : s.flight = some f) :
    (∀ len, len ≠ 16 → exec (i len) s = .next { s with errcode := 2, flight := none }) ∧
    (f.snap.keyValid = false → exec (i 16) s = .next { s with errcode := 3, flight := none }) ∧
    (f.snap.keyValid = true → exec (i 16) s = .next
      { s with block := g f.snap.sched f.snap.block, errcode := 0, flight := none }) := by
  refine ⟨fun len hl => ?_, fun hk => ?_, fun hk => ?_⟩
  · rw [hi, if_pos hl]
    rfl
  · rw [hi, State.operands_of_flight hf, if_neg (not_not.mpr rfl), if_pos hk]
    rfl
  · rw [hi, State.operands_of_flight hf, if_neg (not_not.mpr rfl), if_neg (by simp [hk]),
      State.writeBlock_succeed]

theorem classLEncoding_encrypt : ClassLEncoding .encrypt 0x00000040 :=
  classLEncoding (r := opcodeTable[17]) (op := 0x40) (List.getElem_mem _) rfl rfl fun _ => rfl

theorem classLEncoding_decrypt : ClassLEncoding .decrypt 0x00000041 :=
  classLEncoding (r := opcodeTable[18]) (op := 0x41) (List.getElem_mem _) rfl rfl fun _ => rfl

/-! ### The sequence of rounds -/

/-- The block b after the first n of the steps `step 0`, `step 1`, and so on. -/
def blockAfterSteps (step : Nat → Block → Block) (b : Block) : Nat → Block
  | 0 => b
  | n + 1 => step n (blockAfterSteps step b n)

/-- The 15 encryption steps are Cipher (R190, R196). -/
theorem blockAfterSteps_encStep (w : Schedule) (b : Block) : blockAfterSteps (encStep w) b 15 = cipher w b :=
  encSteps_eq_cipher w b

/-- The 15 decryption steps are InvCipher (R192, R196). -/
theorem blockAfterSteps_decStep (w : Schedule) (b : Block) : blockAfterSteps (decStep w) b 15 = invCipher w b :=
  decSteps_eq_invCipher w b

/-- Between the first and the last step of an encryption, step k is middle round k (R190). -/
theorem encStep_middle (w : Schedule) {k : Nat} (h1 : 1 ≤ k) (h13 : k ≤ 13) (b : Block) :
    encStep w k b = encMiddle w b k := by
  rw [encStep, if_neg (Nat.one_le_iff_ne_zero.mp h1), if_pos (Nat.lt_succ_of_le h13)]

/-- Between the first and the last step of a decryption, step 14 - k is middle round k (R192). -/
theorem decStep_middle (w : Schedule) {j k : Nat} (hjk : j + k = 14) (h1 : 1 ≤ k) (h13 : k ≤ 13) (b : Block) :
    decStep w j b = decMiddle w b k := by
  have hk : 14 - j = k := by omega
  rw [decStep, if_neg (by omega), if_pos (by omega), hk]

/-! ### ENCRYPT and DECRYPT -/

/-- The known-answer vector of R191. -/
theorem cipher_knownAnswer :
    cipher (keyExpansion knownAnswerKey) #v[0x00112233, 0x44556677, 0x8899aabb, 0xccddeeff]
      = #v[0x8ea2b7ca, 0x516745bf, 0xeafc4990, 0x4b496089] := by decide +kernel

/-- The known-answer vector of R193. -/
theorem invCipher_knownAnswer :
    invCipher (keyExpansion knownAnswerKey) #v[0x8ea2b7ca, 0x516745bf, 0xeafc4990, 0x4b496089]
      = #v[0x00112233, 0x44556677, 0x8899aabb, 0xccddeeff] := by decide +kernel

/-- Settles O46: LEN, then KEY_VALID, decide between the two errors and Cipher, and the State after AddRoundKey with
round key k is the one after the first k + 1 steps. -/
theorem encryptResult : Obligations.EncryptResult := by
  refine ⟨classLEncoding_encrypt, fun _ _ hf => exec_blockCommand (g := cipher) (fun _ _ => rfl) hf,
    fun w b => ⟨fun k => blockAfterSteps (encStep w) b (k + 1), rfl, fun k h1 h13 => ?_, rfl,
      (blockAfterSteps_encStep w b).symm⟩, cipher_knownAnswer⟩
  obtain ⟨n, rfl⟩ := Nat.exists_eq_add_of_le' h1
  exact encStep_middle w h1 h13 _

/-- Settles O47: the same checks as ENCRYPT's, then InvCipher, whose steps use the round keys in descending order, so
that the State after round key k is the one after the first 15 - k steps. -/
theorem decryptResult : Obligations.DecryptResult := by
  refine ⟨classLEncoding_decrypt, fun _ _ hf => exec_blockCommand (g := invCipher) (fun _ _ => rfl) hf,
    fun w b => ⟨fun k => blockAfterSteps (decStep w) b (15 - k), rfl, fun k h1 h13 => ?_, rfl,
      (blockAfterSteps_decStep w b).symm⟩, invCipher_knownAnswer⟩
  obtain ⟨n, hn⟩ := Nat.exists_eq_add_of_le' (Nat.le_succ_of_le h13)
  have hk : 15 - k = n + 1 := by omega
  have hk' : 15 - (k + 1) = n := by omega
  simp only [hk, hk']
  exact decStep_middle w hn.symm h1 h13 _

end Sys2Proof.Machine
end

section
/-! PROOFS of the statements about the issue of a command and about NOP (44_host_access.md): O8, O33. -/

namespace Sys2Proof.Machine

/-! ### Issue -/

/-- With BUSY = 1 a guarded write is a fault (R211, R273). -/
theorem State.unlessBusy_of_busy {s : State} (h : s.flight.isSome = true) (t : State) :
    s.unlessBusy t = .fault .hostWriteWhileBusy := if_pos h

/-- Settles O8: CMD is at offset 0 and its write is the guarded issue, which latches what the registers hold. -/
theorem cmdWriteIssuesTheCommand : Obligations.CmdWriteIssuesTheCommand := by
  refine fun s w => ⟨fun hf => ?_, fun hb => ?_⟩
  · exact ⟨_, State.memWrite_off_of_idle (r := .cmd) (t := s.issue w) hf rfl, rfl, rfl, rfl, rfl, rfl, rfl, rfl⟩
  · exact (s.memWrite_off .cmd w).trans (State.unlessBusy_of_busy hb (s.issue w))

/-! ### NOP -/

/-- Bit 1 of STATUS is KEY_VALID (R28). -/
theorem State.statusWord_getLsbD_one (s : State) : s.statusWord.getLsbD 1 = s.keyValid := by
  simp only [State.statusWord, BitVec.getLsbD_append]
  simp

/-- STATUS of an idle core with ERRCODE = 0: KEY_VALID is its only bit that can be set (R28). -/
theorem State.statusWord_succeed (s : State) :
    s.succeed.statusWord = if s.keyValid then 0x00000002 else 0x00000000 := by
  cases hk : s.keyValid <;> simp [State.statusWord, State.err, hk]

/-- No error has the code of success (R231). -/
theorem CmdError.code_ne_zero (e : CmdError) : e.code ≠ 0 := by
  cases e <;> decide

/-- Ending in an error is not completing without one (R33). -/
theorem State.raise_ne_succeed (s : State) (e : CmdError) : s.raise e ≠ s.succeed :=
  fun h => e.code_ne_zero (congrArg State.errcode h)

/-- A command with a check before NoKeySchedule ends in one of the two errors while the latched KEY_VALID is 0
(R233). -/
theorem exists_raise_of_no_key {s : State} {bad : Prop} [Decidable bad] {e : CmdError}
    {o : Host.Outcome State Fault Refusal} (hk : s.operands.keyValid = false) :
    ∃ e', (if bad then .next (s.raise e)
      else if s.operands.keyValid = false then .next (s.raise .noKeySchedule) else o) = .next (s.raise e') := by
  by_cases hb : bad
  · exact ⟨e, if_pos hb⟩
  · exact ⟨.noKeySchedule, by rw [if_neg hb, if_pos hk]⟩

/-- A state that every command but NOP changes: RESULT and STATE0..3 hold what no command makes of the latched
zeros, and KEY_VALID is 0. -/
def nopProbe : State :=
  { State.reset.issue 0x00000000 with result := 1, block := #v[1, 1, 1, 1] }

/-- NOP is told apart from the other commands by one state: there each of them writes RESULT, STATE0..3 or KEY_VALID
a new value, or ends in an error. -/
theorem eq_nop_of_exec_nopProbe {i : Instr} (h : exec i nopProbe = .next nopProbe.succeed) : i = .nop := by
  have hnext {t : State} (ht : exec i nopProbe = .next t) : t = nopProbe.succeed :=
    Host.Outcome.next.inj (ht.symm.trans h)
  have hraise (he : ∃ e, exec i nopProbe = .next (nopProbe.raise e)) : False := by
    obtain ⟨e, he⟩ := he
    exact nopProbe.raise_ne_succeed e (hnext he)
  cases i with
  | nop => rfl
  | gfMul | gfAdd | rotWord | subWord | rcon | sbox | invSbox =>
    exact absurd (congrArg State.result (hnext rfl)) (by decide)
  | subBytes | invSubBytes | shiftRows | invShiftRows | mixColumns | invMixColumns =>
    exact absurd (congrArg State.block (hnext rfl)) (by decide)
  | keyExpand len =>
    by_cases hl : len = 32
    · subst hl
      exact absurd (congrArg State.keyValid (hnext (exec_keyExpand rfl))) (by decide)
    · exact (hraise ⟨_, exec_keyExpand_of_ne nopProbe hl⟩).elim
  | addRoundKey _ | addRoundKeyImc _ | encrypt _ | decrypt _ =>
    exact (hraise (exists_raise_of_no_key rfl)).elim

/-- Settles O33: NOP's completion writes no register, one state tells NOP from every other command, and STATUS after
NOP shows the KEY_VALID it showed before. -/
theorem nopClearsErrcode : Obligations.NopClearsErrcode := by
  refine ⟨classNEncoding rfl rfl (by decide), fun _ _ _ => rfl,
    fun i hi => eq_nop_of_exec_nopProbe (hi nopProbe _ rfl), fun s hs => ⟨_, rfl, ?_⟩⟩
  have hk : s.keyValid = true := by
    rw [← s.statusWord_getLsbD_one, hs]
    rfl
  rw [State.statusWord_succeed, State.issue_keyValid, if_pos hk]

end Sys2Proof.Machine
end

section
/-! PROOFS of the statements about the errors a command can end in (60_exceptions.md): O32, O48, O49. -/

namespace Sys2Proof.Machine

/-- The codes of the errors (R231). -/
theorem CmdError.code_eq_one_to_five (e : CmdError) :
    e.code = 1 ∨ e.code = 2 ∨ e.code = 3 ∨ e.code = 4 ∨ e.code = 5 := by
  cases e <;> decide

/-- The completion of a word that decodes runs the command (R215). -/
theorem State.complete_of_decode_ok {s : State} {f : Flight} {i : Instr} (hf : s.flight = some f)
    (hd : decode f.cmd = .ok i) : s.complete = exec i s := by
  simp [State.complete, hf, hd]

/-- Of the ways a command completes, only an error leaves an ERRCODE other than 0 (R33, R232). -/
theorem Completion.eq_raise {i : Instr} {s t : State} (h : Completion i s t) (ht : t.errcode ≠ 0) :
    ∃ e, t = s.raise e := by
  cases h with
  | error e _ => exact ⟨e, rfl⟩
  | result _ _ | block _ _ | schedule _ | nothing _ => exact absurd (State.succeed_errcode _) ht

/-- A completion with an ERRCODE other than 0 raised an error, a command's own or IllegalCommand (R215, R232). -/
theorem State.eq_raise_of_complete {s t : State} {f : Flight} (hf : s.flight = some f)
    (h : s.complete = .next t) (ht : t.errcode ≠ 0) : ∃ e, t = s.raise e := by
  cases hd : decode f.cmd with
  | ok i =>
    rw [State.complete_of_decode_ok hf hd] at h
    exact (exec_inversion h).eq_raise ht
  | error e =>
    rw [State.complete_of_decode_error hf hd] at h
    exact ⟨.illegalCommand, (Host.Outcome.next.inj h).symm⟩

/-- Settles O32: the completion raised an error, and raising one writes ERRCODE and clears BUSY. -/
theorem errorsHaveNoPartialEffect : Obligations.ErrorsHaveNoPartialEffect := by
  intro s t f hf h ht
  obtain ⟨e, rfl⟩ := State.eq_raise_of_complete hf h ht
  exact ⟨rfl, s.busy_raise e, e.code_eq_one_to_five⟩

/-- Settles O48: the check of LEN or RND is the first thing each of the five commands does, and it fails (R233). -/
theorem commandFieldErrors : Obligations.CommandFieldErrors := fun s _ =>
  ⟨exec_keyExpand_of_ne s, fun hlen => ⟨if_pos hlen, if_pos hlen⟩, fun hrnd => ⟨if_pos hrnd, if_pos hrnd⟩⟩

/-- Settles O49: LEN or RND passes its check, and the latched KEY_VALID fails the next one (R233). -/
theorem noKeyScheduleErrors : Obligations.NoKeyScheduleErrors := by
  intro s f n hf hk
  obtain ⟨-, hencrypt, -⟩ := exec_blockCommand (i := .encrypt) (g := cipher) (fun _ _ => rfl) hf
  obtain ⟨-, hdecrypt, -⟩ := exec_blockCommand (i := .decrypt) (g := invCipher) (fun _ _ => rfl) hf
  obtain ⟨-, hadd, -⟩ := exec_roundKeyCommand (i := .addRoundKey) (g := id) (fun _ _ => rfl) n hf
  obtain ⟨-, himc, -⟩ :=
    exec_roundKeyCommand (i := .addRoundKeyImc) (g := (mixColumns · true)) (fun _ _ => rfl) n hf
  exact ⟨hencrypt hk, hdecrypt hk, fun hn => ⟨hadd hn hk, himc hn hk⟩⟩

end Sys2Proof.Machine
end

section
/-! PROOF of the statement about host writes while a command is in flight (70_reset_and_hazards.md): O23. -/

namespace Sys2Proof.Machine

/-- At the offset of a register whose write BUSY guards, a write with BUSY = 1 is a fault, whatever it would have
stored (R211, R273). -/
theorem State.memWrite_off_of_busy {s t : State} {r : Reg} {v : Word} (hb : s.flight.isSome = true)
    (hw : s.writeReg r v = s.unlessBusy t) : s.memWrite r.off 4 v = .fault .hostWriteWhileBusy := by
  rw [State.memWrite_off, hw, State.unlessBusy_of_busy hb]

/-- Settles O23: each of the fourteen offsets is that of a register whose write BUSY guards. -/
theorem writesWhileBusyFault : Obligations.WritesWhileBusyFault := fun _ _ hb =>
  ⟨State.memWrite_off_of_busy (r := .cmd) hb rfl, State.memWrite_off_of_busy (r := .opnd) hb rfl,
    fun c => State.memWrite_off_of_busy (r := .state c) hb rfl,
    fun i => State.memWrite_off_of_busy (r := .key i) hb rfl⟩

end Sys2Proof.Machine
end

section
/-! PROOFS of the statements about the decoder and the encoder (30_encoding.md): O1, O2, O3, O5. -/

namespace Sys2Proof

/-! ### Decoding an encoding -/

/-- The word of a class R command decodes to the command (R83, R84). -/
theorem ClassREncoding.decode_encode {i : Nat → Instr} {m : Word} (h : ClassREncoding i m) {n : Nat}
    (hn : n < 16) : decode (encode (i n)) = .ok (i n) := by
  obtain ⟨henc, hdec⟩ := h.left n hn
  rw [henc, hdec]

/-- The word of a class L command decodes to the command (R83, R84). -/
theorem ClassLEncoding.decode_encode {i : Nat → Instr} {m : Word} (h : ClassLEncoding i m) {n : Nat}
    (hn : n < 256) : decode (encode (i n)) = .ok (i n) := by
  obtain ⟨henc, hdec⟩ := h.left n hn
  rw [henc, hdec]

/-- Settles O1: a class N command has one word, and the words of the other classes carry RND or LEN in a field of its
width. -/
theorem encodeThenDecodeReturnsCommand : Obligations.EncodeThenDecodeReturnsCommand := by
  intro i hi
  cases i with
  | keyExpand len => exact Machine.classLEncoding_keyExpand.decode_encode (of_decide_eq_true hi)
  | encrypt len => exact Machine.classLEncoding_encrypt.decode_encode (of_decide_eq_true hi)
  | decrypt len => exact Machine.classLEncoding_decrypt.decode_encode (of_decide_eq_true hi)
  | addRoundKey rnd => exact Machine.classREncoding_addRoundKey.decode_encode (of_decide_eq_true hi)
  | addRoundKeyImc rnd => exact Machine.classREncoding_addRoundKeyImc.decode_encode (of_decide_eq_true hi)
  | nop | gfMul | gfAdd | rotWord | subWord | rcon | sbox | invSbox | subBytes | invSubBytes | shiftRows
  | invShiftRows | mixColumns | invMixColumns => rfl

/-! ### Encoding a decoded word -/

/-- RND as a command of the class is encoded with it: 0 for classes N and L (R84). -/
def FieldClass.rnd : FieldClass → Nat → Nat
  | .N, _ => 0
  | .R, rnd => rnd
  | .L, _ => 0

/-- LEN as a command of the class is encoded with it: 0 for classes N and R (R84). -/
def FieldClass.len : FieldClass → Nat → Nat
  | .N, _ => 0
  | .R, _ => 0
  | .L, len => len

/-- What a row builds is encoded with the row's OP and the fields of the row's class (R83, R84). -/
theorem opcodeTable_encode_build : ∀ r ∈ opcodeTable, ∀ rnd len : Nat,
    encode (r.build rnd len) = encodeFields (fieldOp r.pattern) (r.cls.rnd rnd) (r.cls.len len) := by
  intro r hr rnd len
  fin_cases hr <;> rfl

/-- What a row builds from values that fit the fields is well formed (R80, R82). -/
theorem opcodeTable_wellFormed_build : ∀ r ∈ opcodeTable, ∀ rnd len : Nat, rnd < 16 → len < 256 →
    (r.build rnd len).wellFormed = true := by
  intro r hr rnd len hrnd hlen
  fin_cases hr <;> simp [Instr.wellFormed, rndFits, lenFits, hrnd, hlen]

theorem fieldRnd_lt (w : Word) : fieldRnd w < 16 := BitVec.isLt _

theorem fieldLen_lt (w : Word) : fieldLen w < 256 := BitVec.isLt _

/-- A word that decodes selects a row, which builds the command from its fields (R83). -/
theorem exists_row_of_decode_ok {w : Word} {i : Instr} (h : decode w = .ok i) :
    ∃ r ∈ opcodeTable, r.selects w = true ∧ i = r.build (fieldRnd w) (fieldLen w) := by
  obtain ⟨r, hr, hsel⟩ := (decode_ok_iff_selects w).mp ⟨i, h⟩
  exact ⟨r, hr, hsel, Except.ok.inj (h.symm.trans (decode_of_selects hr hsel))⟩

/-- A word is its five fields (R80). -/
theorem word_eq_fields (w : Word) :
    w = w.extractLsb' 24 8 ++ BitVec.ofNat 8 (fieldLen w) ++ w.extractLsb' 12 4 ++
      BitVec.ofNat 4 (fieldRnd w) ++ fieldOp w := by
  rw [fieldLen, fieldRnd, fieldOp, BitVec.ofNat_toNat, BitVec.ofNat_toNat, BitVec.setWidth_eq,
    BitVec.setWidth_eq]
  ext i hi
  grind

/-- The bits of the fields a class uses: OP, and RND or LEN (R81). -/
theorem FieldClass.not_unused (c : FieldClass) :
    ~~~c.unused = (0 : BitVec 8) ++ (if c = .L then BitVec.allOnes 8 else 0) ++ (0 : BitVec 4) ++
      (if c = .R then BitVec.allOnes 4 else 0) ++ BitVec.allOnes 8 := by
  cases c <;> rfl

/-- Encoding the fields the class uses puts back every bit but the ones the class leaves unused (R80, R81). -/
theorem encodeFields_of_fields (c : FieldClass) (w : Word) :
    encodeFields (fieldOp w) (c.rnd (fieldRnd w)) (c.len (fieldLen w)) = w &&& ~~~c.unused := by
  conv_rhs =>
    rw [word_eq_fields w, c.not_unused, BitVec.and_append, BitVec.and_append, BitVec.and_append,
      BitVec.and_append]
  cases c <;> simp [encodeFields, FieldClass.rnd, FieldClass.len, -BitVec.reduceAllOnes]

/-- OP is the eight lowest bits of the word (R80). -/
theorem fieldOp_and_op (w : Word) : fieldOp (w &&& 0xFF) = fieldOp w := by
  have hop : fieldOp 0xFF = BitVec.allOnes 8 := rfl
  rw [fieldOp, BitVec.extractLsb'_and]
  exact BitVec.and_allOnes

/-- A word with 0 in the bits a class leaves unused is the word of the fields the class uses (R80, R81, R84). -/
theorem encodeFields_of_unused_zero {c : FieldClass} {w : Word} (h : w &&& c.unused = 0) :
    encodeFields (fieldOp w) (c.rnd (fieldRnd w)) (c.len (fieldLen w)) = w := by
  have hw : w &&& (c.unused ||| ~~~c.unused) = w := by
    rw [BitVec.or_not_self, BitVec.and_allOnes]
  rw [BitVec.and_or_distrib_left, h] at hw
  exact (encodeFields_of_fields c w).trans (BitVec.zero_or.symm.trans hw)

/-- A word that selects a row is the encoding of what the row builds from its fields (R83, R84). -/
theorem encode_build_of_selects {r : OpcodeRow} (hr : r ∈ opcodeTable) {w : Word} (hw : r.selects w = true) :
    encode (r.build (fieldRnd w) (fieldLen w)) = w := by
  obtain ⟨hop, hunused⟩ := (r.selects_iff hr w).mp hw
  rw [opcodeTable_encode_build r hr, ← hop, fieldOp_and_op, encodeFields_of_unused_zero hunused]

/-- Settles O2: the row the word selects fixes OP and the unused bits, and the command carries the other fields. -/
theorem decodedWordIsItsCommandsEncoding : Obligations.DecodedWordIsItsCommandsEncoding := by
  intro w i h
  obtain ⟨r, hr, hsel, rfl⟩ := exists_row_of_decode_ok h
  exact ⟨opcodeTable_wellFormed_build r hr _ _ (fieldRnd_lt w) (fieldLen_lt w), encode_build_of_selects hr hsel⟩

/-! ### The rows of the table -/

/-- Settles O3: the rows have different OPs, and a word has one. -/
theorem opcodeRowsArePairwiseDisjoint : Obligations.OpcodeRowsArePairwiseDisjoint := by
  have hdiff : opcodeTable.Pairwise fun r q => r.pattern ≠ q.pattern := by decide
  refine hdiff.imp_of_mem fun {r q} hr hq hne w ⟨hrw, hqw⟩ => hne ?_
  obtain ⟨hrop, -⟩ := (r.selects_iff hr w).mp hrw
  obtain ⟨hqop, -⟩ := (q.selects_iff hq w).mp hqw
  exact hrop.symm.trans hqop

/-- Settles O5: each word is looked up in the table. -/
theorem writtenOutWordsDecode : Obligations.WrittenOutWordsDecode :=
  ⟨rfl, rfl, rfl, rfl, rfl, rfl, rfl, rfl, rfl, rfl, rfl, rfl, rfl, rfl, rfl⟩

end Sys2Proof
end

section
/-! PROOFS of the statements about reset and the machine's invariant (70_reset_and_hazards.md, 10_state.md): O15, O16,
O17, O18. -/

namespace Sys2Proof.Machine

/-! ### Reset -/

/-- Settles O15: the reset state's fields are the values R260 names, and STATUS and CMD read what they show. -/
theorem resetLeavesStatusZero : Obligations.ResetLeavesStatusZero :=
  ⟨rfl, rfl, rfl, rfl, rfl, State.reset.memRead_off .status, State.reset.memRead_off .cmd⟩

/-- A step on a reset turn is the reset (R261). -/
theorem step_of_reset_turn {s : State} {rest : List Turn} (h : s.turns = .reset :: rest) :
    step s = .next s.popTurn.resetCore := by
  simp [step, h, State.runTurn, State.popTurn]

/-- STATUS of a core just reset (R260). -/
theorem State.statusWord_resetCore (s : State) : s.resetCore.statusWord = 0 := by
  simp [State.statusWord, State.err]

/-- A reset looks at neither the command in flight nor ERRCODE (R261). -/
theorem State.resetCore_of_flight_errcode (s : State) (fl : Option Flight) (e : BitVec 4) :
    ({ s with flight := fl, errcode := e } : State).resetCore = s.resetCore := rfl

/-- Settles O16: a reset turn is the reset of the core, which keeps only the hosts, the turns and the count of
draws. -/
theorem resetAbandonsTheCommandInFlight : Obligations.ResetAbandonsTheCommandInFlight := by
  refine fun s rest h => ⟨⟨_, step_of_reset_turn h, rfl, rfl, rfl, s.popTurn.statusWord_resetCore, rfl, ?_⟩,
    fun fl e => ?_⟩
  · simp [h]
  · rw [step_of_reset_turn h, step_of_reset_turn (s := { s with flight := fl, errcode := e }) h]
    exact congrArg Host.Outcome.next (s.popTurn.resetCore_of_flight_errcode fl e)

/-! ### The invariant -/

/-- Settles O17: with KEY_VALID = 0, no command in flight and no host, only the code of ERRCODE is to be checked. -/
theorem resetMeetsTheInvariant : Obligations.ResetMeetsTheInvariant where
  errcode_listed := by decide
  schedule_expanded := nofun
  snapshot_current := nofun
  datapath_on_course := nofun
  vars_canonical := nofun

/-- The codes of the errors are the listed ones (R231). -/
theorem CmdError.code_le_five (e : CmdError) : e.code.toNat ≤ 5 := by
  cases e <;> decide

/-- The invariant of a core with no command in flight, of which three clauses remain. -/
theorem State.Inv.of_idle {s : State} (hf : s.flight = none) (herr : s.errcode.toNat ≤ 5)
    (hsched : s.keyValid = true → ∃ k : Key, s.sched = keyExpansion k)
    (hvars : ∀ h ∈ s.hosts, varsWf h.vars = true) : s.Inv where
  errcode_listed := herr
  schedule_expanded := hsched
  snapshot_current _ h := nomatch hf.symm.trans h
  datapath_on_course _ h := nomatch hf.symm.trans h
  vars_canonical := hvars

section
variable {s : State} (hinv : s.Inv)
include hinv

/-- The turns are no part of the invariant. -/
theorem State.Inv.popTurn : s.popTurn.Inv where
  errcode_listed := hinv.errcode_listed
  schedule_expanded := hinv.schedule_expanded
  snapshot_current := hinv.snapshot_current
  datapath_on_course := hinv.datapath_on_course
  vars_canonical := hinv.vars_canonical

/-- Neither is the counter of draws. -/
theorem State.Inv.afterDraw : s.afterDraw.Inv where
  errcode_listed := hinv.errcode_listed
  schedule_expanded := hinv.schedule_expanded
  snapshot_current := hinv.snapshot_current
  datapath_on_course := hinv.datapath_on_course
  vars_canonical := hinv.vars_canonical

/-- Of a host only its variables matter. -/
theorem State.Inv.setHost (k : Nat) {h : HostAgent} (hvars : varsWf h.vars = true) : (s.setHost k h).Inv where
  errcode_listed := hinv.errcode_listed
  schedule_expanded := hinv.schedule_expanded
  snapshot_current := hinv.snapshot_current
  datapath_on_course := hinv.datapath_on_course
  vars_canonical g hg := (List.mem_or_eq_of_mem_set hg).elim (hinv.vars_canonical g) (fun hgh => hgh ▸ hvars)

/-- An issue latches the registers as they stand, and its datapath starts with the State and no step done (R214). -/
theorem State.Inv.issue (w : Word) : (s.issue w).Inv where
  errcode_listed := hinv.errcode_listed
  schedule_expanded := hinv.schedule_expanded
  snapshot_current f hf := by cases hf; rfl
  datapath_on_course f hf := by
    cases hf
    refine ⟨Nat.zero_le 15, ?_⟩
    cases decode w <;> simp [workAfter]
  vars_canonical := hinv.vars_canonical

/-- A cycle advances the hidden datapath on its course and leaves the latched operands (R40). -/
theorem State.Inv.cycleOnce : s.cycleOnce.Inv where
  errcode_listed := hinv.errcode_listed
  schedule_expanded := hinv.schedule_expanded
  snapshot_current g hg := by
    obtain ⟨f, hf, rfl⟩ := Option.map_eq_some_iff.mp hg
    exact f.advance_snap.trans (hinv.snapshot_current f hf)
  datapath_on_course g hg := by
    obtain ⟨f, hf, rfl⟩ := Option.map_eq_some_iff.mp hg
    exact f.advance_onCourse (hinv.datapath_on_course f hf)
  vars_canonical := hinv.vars_canonical

/-- A host write to a register other than CMD needs BUSY = 0, so no latched operand is out of date (R273). -/
theorem WriteEffect.keeps_inv {off : Nat} {v : Word} {t : State} (h : WriteEffect off v s t) : t.Inv := by
  cases h with
  | ignored => exact hinv
  | issued hf => exact hinv.issue v
  | key hf i ho => exact .of_idle hf hinv.errcode_listed hinv.schedule_expanded hinv.vars_canonical
  | block hf c => exact .of_idle hf hinv.errcode_listed hinv.schedule_expanded hinv.vars_canonical
  | opnd hf => exact .of_idle hf hinv.errcode_listed hinv.schedule_expanded hinv.vars_canonical

/-- A host's statement assigns variables canonically, and its accesses keep the invariant (R88). -/
theorem HostEffect.keeps_inv {k : Nat} {h : HostAgent} {st : HostStmt} {t : State}
    (hvars : varsWf h.vars = true) (he : HostEffect k h st s t) : t.Inv := by
  cases he with
  | moved pc ha hr => exact hinv.setHost k hvars
  | assigned x v hs => exact hinv.setHost k (varsSet_wf x _ hvars)
  | read p x off v s' hs ho hv hs' =>
    obtain rfl | rfl := hs'
    · exact hinv.setHost k (varsSet_wf x v hvars)
    · exact hinv.afterDraw.setHost k (varsSet_wf x v hvars)
  | write p e off t hs ho hw => exact hw.keeps_inv (hinv.setHost k (h := h.advance) hvars)

/-- Raising an error leaves a listed code (R231). -/
theorem State.Inv.raise (e : CmdError) : (s.raise e).Inv :=
  .of_idle rfl e.code_le_five hinv.schedule_expanded hinv.vars_canonical

/-- A completion leaves a listed code, and the only schedule one writes is expanded from a key (R34, R231). -/
theorem Completion.keeps_inv {i : Instr} {t : State} (h : Completion i s t) : t.Inv := by
  cases h with
  | error e he => exact hinv.raise e
  | result v hi => exact .of_idle rfl (Nat.zero_le 5) hinv.schedule_expanded hinv.vars_canonical
  | block b hi => exact .of_idle rfl (Nat.zero_le 5) hinv.schedule_expanded hinv.vars_canonical
  | nothing hi => exact .of_idle rfl (Nat.zero_le 5) hinv.schedule_expanded hinv.vars_canonical
  | schedule hi =>
    refine .of_idle rfl (Nat.zero_le 5) (fun _ => ⟨s.operands.key, ?_⟩) ?_
    · rw [State.succeed_sched, State.writeSchedule_sched]
    · rw [State.succeed_hosts, State.writeSchedule_hosts]
      exact hinv.vars_canonical

/-- Every effect of a step keeps the invariant. -/
theorem StepEffect.keeps_inv {t : State} (h : StepEffect s t) : t.Inv := by
  cases h with
  | nothing => exact hinv.popTurn
  | cycle => exact hinv.popTurn.cycleOnce
  | completed f i t hf hd hc => exact hc.keeps_inv hinv.popTurn
  | illegal f e hf hd => exact hinv.popTurn.raise .illegalCommand
  | reset ht => exact .of_idle rfl (Nat.zero_le 5) nofun hinv.vars_canonical
  | host k a st t hk hh hst he =>
    exact he.keeps_inv hinv.popTurn (hinv.vars_canonical a (List.mem_of_getElem? hh))

end

/-- Settles O18: by the effects a step can have, each of which keeps the invariant. -/
theorem everyStepKeepsTheInvariant : Obligations.EveryStepKeepsTheInvariant :=
  fun _ _ hinv hstep => (step_inversion hstep).keeps_inv hinv

end Sys2Proof.Machine
end

section
/-! PROOFS of the statements about what a command writes (10_state.md): O27, O28, O29. -/

namespace Sys2Proof.Machine

/-- Settles O27: a completion writes neither. -/
theorem commandsNeverWriteKeyOrOperand : Obligations.CommandsNeverWriteKeyOrOperand := by
  intro i s t h
  obtain ⟨-, hframe⟩ := (exec_inversion h).frame
  exact hframe

/-- No command is both a scalar and a State command (R23, R25). -/
theorem not_isScalar_and_isStateCommand (i : Instr) : ¬ (i.isScalar = true ∧ i.isStateCommand = true) := by
  cases i <;> simp [Instr.isScalar, Instr.isStateCommand]

/-- Settles O28: of the five ways to complete, only a scalar command's writes RESULT, and no other is a scalar
command's but an error, which writes nothing. -/
theorem onlyScalarCommandsWriteResult : Obligations.OnlyScalarCommandsWriteResult := by
  intro i s t h
  cases exec_inversion h with
  | error e he => exact ⟨fun _ => rfl, fun _ => ⟨rfl, rfl, rfl⟩⟩
  | result v hi => exact ⟨fun hno => absurd (hno.symm.trans hi) nofun, fun _ => ⟨rfl, rfl, rfl⟩⟩
  | block b hi => exact ⟨fun _ => rfl, fun hs => absurd ⟨hs, hi⟩ (not_isScalar_and_isStateCommand i)⟩
  | nothing hi => exact ⟨fun _ => rfl, fun _ => ⟨rfl, rfl, rfl⟩⟩
  | schedule hi =>
    subst hi
    exact ⟨fun _ => by rw [State.succeed_result, State.writeSchedule_result], nofun⟩

/-- Settles O29: of the five ways to complete, only a State command's writes STATE0..3, and no other is a State
command's but an error, which writes nothing. -/
theorem onlyStateCommandsWriteState : Obligations.OnlyStateCommandsWriteState := by
  intro i s t h
  cases exec_inversion h with
  | error e he => exact ⟨fun _ => rfl, fun _ => ⟨rfl, rfl, rfl⟩⟩
  | result v hi => exact ⟨fun _ => rfl, fun hs => absurd ⟨hi, hs⟩ (not_isScalar_and_isStateCommand i)⟩
  | block b hi => exact ⟨fun hno => absurd (hno.symm.trans hi) nofun, fun _ => ⟨rfl, rfl, rfl⟩⟩
  | nothing hi => exact ⟨fun _ => rfl, fun _ => ⟨rfl, rfl, rfl⟩⟩
  | schedule hi =>
    subst hi
    exact ⟨fun _ => by rw [State.succeed_block, State.writeSchedule_block], nofun⟩

end Sys2Proof.Machine
end

section
/-! PROOFS of the statements about what a step does to the keys and what stops a run (60_exceptions.md,
70_reset_and_hazards.md): O26, O31. -/

namespace Sys2Proof.Machine

/-- A host write leaves KEY0..7, or is the write of one of them on an idle core (R22, R211). -/
theorem WriteEffect.key_cases {off : Nat} {v : Word} {s t : State} (h : WriteEffect off v s t) :
    t.key = s.key ∨ s.flight = none ∧
      ∃ i : Fin 8, off = 0x020 + 4 * i.val ∧ t = { s with key := s.key.set i.val v } := by
  cases h with
  | key hf i ho => exact .inr ⟨hf, i, ho, rfl⟩
  | ignored => exact .inl rfl
  | issued hf => exact .inl rfl
  | block hf c => exact .inl rfl
  | opnd hf => exact .inl rfl

/-- A host's statement leaves KEY0..7, or is the write of one of them on an idle core (R22, R88). -/
theorem HostEffect.key_cases {k : Nat} {h : HostAgent} {st : HostStmt} {s t : State}
    (he : HostEffect k h st s t) : t.key = s.key ∨ s.flight = none ∧
      ∃ (p : Place) (e : HostExpr) (i : Fin 8), st = .wr p 4 e ∧ p.offset = some (0x020 + 4 * i.val) ∧
        t = { s.setHost k h.advance with key := s.key.set i.val (e.eval h.vars) } := by
  cases he with
  | moved pc ha hr => exact .inl rfl
  | assigned x v hs => exact .inl rfl
  | read p x off v s' hs ho hv hs' => obtain rfl | rfl := hs' <;> exact .inl rfl
  | write p e off t hs ho hw =>
    obtain hkeep | ⟨hf, i, rfl, rfl⟩ := hw.key_cases
    · exact .inl hkeep
    · exact .inr ⟨hf, p, e, i, hs, ho, rfl⟩

/-- Settles O31: by the cases of a step that is no reset, of which only a host's write of a KEY register changes
one. -/
theorem keyChangesOnlyByHostWrite : Obligations.KeyChangesOnlyByHostWrite := by
  intro s t hstep hr hchange
  cases step_inversion hstep with
  | nothing => exact absurd rfl hchange
  | cycle => exact absurd rfl hchange
  | illegal f e hf hd => exact absurd rfl hchange
  | reset ht => exact absurd ht hr
  | completed f i t hf hd hc =>
    obtain ⟨-, hkey, -⟩ := hc.frame
    exact absurd hkey hchange
  | host k a st t hk hh hst he =>
    obtain hkeep | ⟨hf, p, e, i, rfl, ho, rfl⟩ := he.key_cases
    · exact absurd hkeep hchange
    · exact ⟨hf, rfl, rfl, rfl, k, a, p, e, i, hh, hst, ho, rfl⟩

/-- A host's statement that faults is a malformed access, or a write that BUSY forbids (R62, R273). -/
theorem HostStop.fault_cases {h : HostAgent} {st : HostStmt} {s : State} {r : Fault}
    (hs : HostStop h st s (.fault r)) : ∃ (p : Place) (off width : Nat), p.offset = some off ∧
      (r = .badAccess ∧ accessMalformed off width = true ∧
          ((∃ v, st = .wr p width v) ∨ ∃ t, st = .rd p width t) ∨
        r = .hostWriteWhileBusy ∧ s.busy = true ∧ width = 4 ∧ (∃ v, st = .wr p width v) ∧
          BusyGuarded off) := by
  cases hs with
  | badRead p width t off hst ho hm => exact ⟨p, off, width, ho, .inl ⟨rfl, hm, .inr ⟨t, hst⟩⟩⟩
  | badWrite p width e off hst ho hm => exact ⟨p, off, width, ho, .inl ⟨rfl, hm, .inl ⟨e, hst⟩⟩⟩
  | busyWrite p e off hst ho hb hg => exact ⟨p, off, 4, ho, .inr ⟨rfl, hb, rfl, ⟨e, hst⟩, hg⟩⟩

/-- A host's statement that is refused is an access outside the window (R67). -/
theorem HostStop.refused_cases {h : HostAgent} {st : HostStmt} {s : State} {r : Refusal}
    (hs : HostStop h st s (.refused r)) : r = .outsideWindow ∧ ∃ (p : Place) (width : Nat),
      p.offset = none ∧ ((∃ v, st = .wr p width v) ∨ ∃ t, st = .rd p width t) := by
  cases hs with
  | outsideRead p width t hst ho => exact ⟨rfl, p, width, ho, .inr ⟨t, hst⟩⟩
  | outsideWrite p width e hst ho => exact ⟨rfl, p, width, ho, .inl ⟨e, hst⟩⟩

/-- A step that answers no next state is stopped by the statement of the host that has the turn. -/
theorem stepStop_of_no_next {s : State} {o : Host.Outcome State Fault Refusal} (h : step s = o)
    (hno : ∀ t, o ≠ .next t) : StepStop s o := by
  subst h
  obtain ⟨t, ht, -⟩ | hstop := step_cases s
  · exact absurd ht (hno t)
  · exact hstop

/-- Settles O26: only a host's statement stops a step, and each way it can is one of the statement's. -/
theorem onlyHostAccessesStopARun : Obligations.OnlyHostAccessesStopARun := by
  refine fun s => ⟨fun r h => ?_, fun r h => ?_⟩
  · obtain ⟨k, a, st, hk, hh, hst, hstop⟩ := stepStop_of_no_next h nofun
    obtain ⟨p, off, width, ho, hcase⟩ := hstop.fault_cases
    refine ⟨k, a, p, off, width, hk, hh, ho, hcase.imp ?_ ?_⟩
    · rintro ⟨hr, hm, hacc⟩
      exact ⟨hr, accessMalformed_eq_true_iff.mp hm, by rw [hst]; simpa using hacc⟩
    · rintro ⟨hr, hb, hw, hacc, hg⟩
      exact ⟨hr, hb, hw, by rw [hst]; simpa using hacc, hg⟩
  · obtain ⟨k, a, st, hk, hh, hst, hstop⟩ := stepStop_of_no_next h nofun
    obtain ⟨hr, p, width, ho, hacc⟩ := hstop.refused_cases
    exact ⟨hr, k, a, p, width, hk, hh, ho, by rw [hst]; simpa using hacc⟩

end Sys2Proof.Machine
end

section
/-! PROOFS of the statements about the step, the completion and the hidden datapath (44_host_access.md,
43_cipher_engine.md): O7, O9, O10, O11, O12. -/

namespace Sys2Proof.Machine

/-! ### The completion step -/

/-- With no turn listed a command in flight completes (R217). -/
theorem step_of_no_turn {s : State} {f : Flight} (hf : s.flight = some f) (ht : s.turns = []) :
    step s = s.complete := by
  simp [step, ht, State.idleTurn, State.busy, hf]

/-- On the sequencer's completion turn the command in flight completes (R215). -/
theorem step_of_complete_turn {s : State} {rest : List Turn} (ht : s.turns = .complete :: rest) :
    step s = State.complete { s with turns := rest } := by
  simp [step, ht, State.runTurn]

/-- A command has one word of 32 bits (R80, R87). -/
theorem decode_of_decodeTableWord {w : Nat} {i : Instr} (h : decodeTableWord 32 w = some i) :
    decode (BitVec.ofNat 32 w) = .ok i := by
  have hw : BitVec.ofNat 32 (w % 2 ^ 32) = BitVec.ofNat 32 w := BitVec.eq_of_toNat_eq (by simp)
  rw [decodeTableWord, if_pos (Nat.le_refl 32), hw] at h
  cases hd : decode (BitVec.ofNat 32 w) with
  | ok j => exact congrArg Except.ok (Option.some.inj (by simpa [hd, Except.toOption] using h))
  | error e => simp [hd, Except.toOption] at h

/-- A command placed by withFetchWord is issued, and its completion is the next step (R72, R214). -/
theorem step_withFetchWord (s : State) (w : Nat) :
    step (s.withFetchWord 32 w) = (s.issue (BitVec.ofNat 32 w)).complete := by
  have hw : BitVec.ofNat 32 (w % 2 ^ 32) = BitVec.ofNat 32 w := BitVec.eq_of_toNat_eq (by simp)
  rw [step_of_complete_turn (s := s.withFetchWord 32 w) rfl, State.withFetchWord, hw]
  rfl

/-- Settles O7: the step is the completion, and the completion of a word that decodes is exec of its command. -/
theorem stepRunsTheDecodedCommand : Obligations.StepRunsTheDecodedCommand := by
  refine ⟨fun s f hf => ⟨step_of_no_turn hf, fun _ => step_of_complete_turn, fun i hd => ?_⟩, fun s w i hw => ?_⟩
  · have hexec : s.complete = exec i s := State.complete_of_decode_ok hf hd
    exact ⟨hexec, fun ht => (step_of_no_turn hf ht).trans hexec,
      fun rest ht => (step_of_complete_turn ht).trans (State.complete_of_decode_ok hf hd)⟩
  · rw [step_withFetchWord]
    exact State.complete_of_decode_ok (State.issue_flight s _) (decode_of_decodeTableWord hw)

/-- The completion of a command in flight, legal or not, always ends with a next state, and clears BUSY (R31). -/
theorem State.complete_of_flight {s : State} {f : Flight} (hf : s.flight = some f) :
    ∃ t, s.complete = .next t ∧ t.flight = none ∧ t.turns = s.turns ∧ t.hosts = s.hosts ∧ t.draws = s.draws := by
  cases hd : decode f.cmd with
  | ok i =>
    obtain ⟨t, ht, hc⟩ := exec_completes i s
    obtain ⟨hfl, -, -, hhosts, hturns, hdraws⟩ := hc.frame
    exact ⟨t, (State.complete_of_decode_ok hf hd).trans ht, hfl, hturns, hhosts, hdraws⟩
  | error e => exact ⟨_, State.complete_of_decode_error hf hd, rfl, rfl, rfl, rfl⟩

/-- Settles O9: in both cases the step is a completion, which every command in flight has. -/
theorem everyCommandCompletes : Obligations.EveryCommandCompletes := by
  rintro s f rest hf (ht | ⟨ht, rfl⟩)
  · rw [step_of_complete_turn ht]
    exact State.complete_of_flight (s := { s with turns := rest }) hf
  · rw [step_of_no_turn hf ht, ← ht]
    exact State.complete_of_flight hf

/-! ### The hidden datapath -/

/-- What a host sees of the command in flight is that there is one (R31, R40). -/
theorem State.observe_of_flight (s : State) (ts : List Turn) {fl : Option Flight}
    (h : fl.isSome = s.flight.isSome) (r : Reg) :
    ({ s with turns := ts, flight := fl } : State).observe r = s.observe r := by
  have hbusy : ({ s with turns := ts, flight := fl } : State).busy = s.busy := h
  have hunspec : ({ s with turns := ts, flight := fl } : State).unspecified r = s.unspecified r := by
    cases r <;> simp only [State.unspecified, hbusy]
  have hvalue : ({ s with turns := ts, flight := fl } : State).regValue r = s.regValue r := by
    cases r with
    | status => simp only [State.regValue, State.statusWord, hbusy, State.err]
    | cmd | opnd | result | state _ | key _ | rkw _ => rfl
  simp only [State.observe, hunspec, hvalue]

/-- Settles O10: a cycle advances the datapath of the command in flight, which a host does not see. -/
theorem cyclesAreInvisibleToHosts : Obligations.CyclesAreInvisibleToHosts := by
  intro s rest ht
  have hsome : (s.flight.map Flight.advance).isSome = s.flight.isSome := Option.isSome_map
  exact ⟨_, by simp only [step, ht]; rfl, hsome, s.observe_of_flight rest hsome⟩

/-- The effect of a command writes no part of the command in flight but ends it. -/
theorem Effect.apply_of_flight (e : Effect) (s : State) (fl fl' : Option Flight) :
    e.apply { s with flight := fl } = e.apply { s with flight := fl' } := by
  cases e <;> rfl

/-- The completion is fixed by the command word and the operands latched with it (R215). -/
theorem State.complete_of_flight_congr (s : State) {f g : Flight} (hcmd : g.cmd = f.cmd)
    (hsnap : g.snap = f.snap) :
    ({ s with flight := some g } : State).complete = ({ s with flight := some f } : State).complete := by
  cases hd : decode f.cmd with
  | ok i =>
    obtain ⟨e, he⟩ := exec_effect i f.snap
    rw [State.complete_of_decode_ok (f := g) rfl (hcmd ▸ hd), State.complete_of_decode_ok (f := f) rfl hd,
      he { s with flight := some g } hsnap, he { s with flight := some f } rfl, e.apply_of_flight]
  | error e =>
    rw [State.complete_of_decode_error (f := g) rfl (hcmd ▸ hd), State.complete_of_decode_error (f := f) rfl hd]
    rfl

/-- Settles O11: the working copy and the count of steps are neither the command word nor an operand. -/
theorem completionIgnoresHiddenDatapath : Obligations.CompletionIgnoresHiddenDatapath :=
  fun s _ _ _ => s.complete_of_flight_congr rfl rfl

/-- Once a cycle changes nothing, no later one does. -/
theorem Flight.repeat_advance_add {f : Flight} {m : Nat}
    (h : (Nat.repeat Flight.advance m f).advance = Nat.repeat Flight.advance m f) (n : Nat) :
    Nat.repeat Flight.advance (m + n) f = Nat.repeat Flight.advance m f := by
  induction n with
  | zero => rfl
  | succ n ih => exact (congrArg Flight.advance ih).trans h

/-- A command whose datapath does the steps `st 0` to `st 14` has done them after 15 cycles, and then stays. -/
theorem Flight.repeat_advance_fifteen {f : Flight} {i : Instr} (hd : decode f.cmd = .ok i)
    (st : Nat → Block → Block) (hr : ∀ k w, k < 15 → roundStep i f.snap k w = some (st k w))
    (h0 : f.stepsDone = 0) :
    (Nat.repeat Flight.advance 15 f).work = blockAfterSteps st f.work 15 ∧
      (Nat.repeat Flight.advance 15 f).stepsDone = 15 ∧
      ∀ n, Nat.repeat Flight.advance (15 + n) f = Nat.repeat Flight.advance 15 f := by
  have h15 := Flight.repeat_advance hd st hr h0 15 (Nat.le_refl 15)
  refine ⟨congrArg Flight.work h15, congrArg Flight.stepsDone h15, Flight.repeat_advance_add ?_⟩
  rw [h15]
  refine Flight.advance_none hd (Option.eq_none_iff_forall_ne_some.mpr fun b hb => ?_)
  exact absurd (roundStep_some hb) (Nat.lt_irrefl 15)

/-- Settles O12: the datapath's steps are those of Cipher and of InvCipher, and there are 15. -/
theorem datapathReachesTheCipherResult : Obligations.DatapathReachesTheCipherResult := by
  have henc : decode 0x00100040 = .ok (.encrypt 16) := rfl
  have hdec : decode 0x00100041 = .ok (.decrypt 16) := rfl
  refine fun s hk => ⟨fun f hf => ?_, fun f hf => ?_⟩ <;> obtain rfl := Option.some.inj hf
  · rw [← blockAfterSteps_encStep]
    exact Flight.repeat_advance_fifteen (i := .encrypt 16) henc (encStep s.sched)
      (fun k w hlt => if_pos ⟨rfl, hk, hlt⟩) rfl
  · rw [← blockAfterSteps_decStep]
    exact Flight.repeat_advance_fifteen (i := .decrypt 16) hdec (decStep s.sched)
      (fun k w hlt => if_pos ⟨rfl, hk, hlt⟩) rfl

end Sys2Proof.Machine
end

section
/-! PROOFS of the statements about STATUS, host reads, the window and the end of a run (10_state.md, 20_memory.md,
44_host_access.md): O14, O19, O21, O25, O60. -/

namespace Sys2Proof.Machine

/-! ### STATUS -/

section
variable (s : State)

/-- Bit 0 of STATUS is BUSY (R28). -/
theorem State.statusWord_getLsbD_zero : s.statusWord.getLsbD 0 = s.busy := by
  simp only [State.statusWord, BitVec.getLsbD_append]
  simp

/-- Bit 2 of STATUS is ERR (R28, R33). -/
theorem State.statusWord_getLsbD_two : s.statusWord.getLsbD 2 = s.err := by
  simp only [State.statusWord, BitVec.getLsbD_append]
  simp

/-- Bit 3 of STATUS is reserved (R28). -/
theorem State.statusWord_getLsbD_three : s.statusWord.getLsbD 3 = false := by
  simp only [State.statusWord, BitVec.getLsbD_append]
  simp

/-- Bits 7 to 4 of STATUS are ERRCODE (R28). -/
theorem State.statusWord_errcode : s.statusWord.extractLsb' 4 4 = s.errcode := by
  apply BitVec.eq_of_getLsbD_eq
  intro i hi
  simp only [State.statusWord, BitVec.getLsbD_extractLsb', BitVec.getLsbD_append]
  simp [hi]

/-- Bits 31 to 8 of STATUS are reserved (R28). -/
theorem State.statusWord_getLsbD_of_ge {i : Nat} (hi : 8 ≤ i) : s.statusWord.getLsbD i = false := by
  simp only [State.statusWord, BitVec.getLsbD_append]
  grind

end

/-- Settles O19: each field stands at its place, a read of STATUS is of the word itself, and the write is that of a
read-only register. -/
theorem statusFields : Obligations.StatusFields := fun s =>
  ⟨s.statusWord_getLsbD_zero, s.statusWord_getLsbD_one, s.statusWord_getLsbD_two, s.statusWord_getLsbD_three,
    s.statusWord_errcode, fun _ => s.statusWord_getLsbD_of_ge, s.memRead_off .status, s.memWrite_off .status⟩

/-! ### Host reads -/

section
variable {s : State}

/-- A read at the offset of a register that is not unspecified gives its value (R210). -/
theorem State.memRead_off_of_specified {r : Reg} (h : s.unspecified r = false) :
    s.memRead r.off 4 = .next (s.regValue r, s) := by
  rw [State.memRead_off, State.readReg_of_specified h]

/-- A read at the offset of an unspecified register draws a value (R210). -/
theorem State.memRead_off_of_unspecified {r : Reg} (h : s.unspecified r = true) :
    ∃ v, s.memRead r.off 4 = .next (v, s.afterDraw) :=
  ⟨s.drawn, by rw [State.memRead_off, State.readReg_of_unspecified h]⟩

/-- An aligned read where no register stands gives 0 (R63). -/
theorem State.memRead_of_regAt_none {off : Nat} (ha : off % 4 = 0) (hr : regAt off = none) :
    s.memRead off 4 = .next (0, s) := by
  simp [State.memRead, accessMalformed, ha, hr]

/-- The round keys can be read on an idle core with KEY_VALID = 1, and only there (R30, R210). -/
theorem State.unspecified_rkw_iff {i : Fin 60} :
    s.unspecified (.rkw i) = true ↔ s.flight.isSome = true ∨ s.keyValid = false := by
  simp [State.unspecified, State.busy]

end

/-- Settles O21: each offset is that of a register, whose value is unspecified in the cases R210 names, or is
reserved. -/
theorem hostReads : Obligations.HostReads := by
  intro s
  refine ⟨State.memRead_off_of_specified (r := .cmd) rfl, State.memRead_off_of_specified (r := .opnd) rfl,
    fun i => State.memRead_off_of_specified (r := .key i) rfl,
    fun off ha hres => State.memRead_of_regAt_none ha (regAt_reserved hres),
    fun hf => State.memRead_off_of_specified (r := .result) (s.busy_eq_false_iff.mpr hf),
    fun hf c => State.memRead_off_of_specified (r := .state c) (s.busy_eq_false_iff.mpr hf),
    fun hf hk i => State.memRead_off_of_specified (r := .rkw i) ?_,
    fun hb => ⟨State.memRead_off_of_unspecified (r := .result) hb,
      fun c => State.memRead_off_of_unspecified (r := .state c) hb⟩,
    fun h i => State.memRead_off_of_unspecified (r := .rkw i) (State.unspecified_rkw_iff.mpr h)⟩
  exact Bool.eq_false_iff.mpr fun h => by simpa [hf, hk] using State.unspecified_rkw_iff.mp h

/-! ### The window -/

/-- Settles O25: BASE is a multiple by definition, and the window's addresses run from BASE to BASE + 0x1FF. -/
theorem windowAddresses : Obligations.WindowAddresses := by
  refine ⟨⟨Config.baseIndex, rfl⟩, fun n addr off => ?_⟩
  simp only [windowOffset, Config.windowSize]
  split
  · rw [Option.some.injEq]
    omega
  · simp only [reduceCtorEq, false_iff]
    omega

/-- A place in the window names its offset (R60). -/
theorem Place.offset_off {off : Nat} (h : off < 0x200) : (Place.off off).offset = some off := if_pos h

/-- A step on a host's turn is its next statement (R69, R88). -/
theorem step_of_host_turn {s : State} {k : Nat} {rest : List Turn} {h : HostAgent} {st : HostStmt}
    (ht : s.turns = .host k :: rest) (hh : s.hosts[k]? = some h) (hst : h.prog[h.pc]? = some st) :
    step s = State.hostStmt k h st { s with turns := rest } := by
  simp [step, ht, State.runTurn, State.hostTurn, hh, hst]

/-- Settles O14: the statement is the access at the offset its place names, and the host moves on. -/
theorem hostStatementsAccessTheWindow : Obligations.HostStatementsAccessTheWindow := by
  refine fun s h k off rest ht hh hoff => ⟨fun v hst => ?_, fun t v s' hst hread => ?_⟩
  · rw [step_of_host_turn ht hh hst, State.hostStmt, State.hostWrite, Place.offset_off hoff]
    rfl
  · rw [step_of_host_turn ht hh hst, State.hostStmt, State.hostRead, Place.offset_off hoff]
    simp only [hread]
    rfl

/-! ### The end of a run -/

/-- A finished host has no statement left (R218). -/
theorem HostAgent.no_statement_of_finished {h : HostAgent} (hfin : h.finished = true) :
    h.prog[h.pc]? = none :=
  List.getElem?_eq_none (of_decide_eq_true hfin)

/-- The turn of a host with no statement left, or of none, changes nothing (R248). -/
theorem State.hostTurn_of_no_statement {s : State} (h : ∀ a ∈ s.hosts, a.prog[a.pc]? = none) (k : Nat) :
    s.hostTurn k = .next s := by
  unfold State.hostTurn
  cases hk : s.hosts[k]? with
  | none => rfl
  | some a => simp only [h a (List.mem_of_getElem? hk)]

/-- Settles O60: with BUSY = 0 and no statement left only a listed turn could act, and no register but the round keys
is unspecified. -/
theorem endedRunShowsTheRegisters : Obligations.EndedRunShowsTheRegisters := by
  intro s hend
  obtain ⟨hall, hidle⟩ := Bool.and_eq_true_iff.mp hend
  have hb : s.busy = false := by simpa using hidle
  have hnone : ∀ h ∈ s.hosts, h.prog[h.pc]? = none := fun h hh =>
    HostAgent.no_statement_of_finished (List.all_eq_true.mp hall h hh)
  refine ⟨hb, hnone, fun ht => ?_, rfl, rfl, rfl, State.observe_of_specified (r := .result) hb,
    fun c => State.observe_of_specified (r := .state c) hb, fun i => rfl,
    fun hk i => State.observe_of_specified (r := .rkw i) (by simp [State.unspecified, hb, hk])⟩
  simp only [step, ht, State.idleTurn, hb, State.hostTurn_of_no_statement hnone]
  rfl

end Sys2Proof.Machine
end

section
/-! PROOF of the statement that a host leaves its WAIT loop (44_host_access.md section 3): O13. -/

namespace Sys2Proof.Machine

/-! ### Registers that agree -/

/-- Every register of the core, with ERRCODE and KEY_VALID; what is left out is the command in flight and all that
lies outside the core. -/
def State.registers (s : State) : Snapshot × Word × BitVec 4 := (s.snapshot, s.result, s.errcode)

/-- The registers agree when each of them does. -/
theorem State.registers_eq_iff {s t : State} : s.registers = t.registers ↔
    s.key = t.key ∧ s.block = t.block ∧ s.opnd = t.opnd ∧ s.result = t.result ∧ s.sched = t.sched ∧
      s.keyValid = t.keyValid ∧ s.errcode = t.errcode := by
  simp only [State.registers, State.snapshot, Prod.mk.injEq, Snapshot.mk.injEq]
  tauto

/-- An effect writes the same registers the same values whatever the hosts, the turns and the datapath are. -/
theorem Effect.apply_registers (e : Effect) {s t : State} (h : s.registers = t.registers) :
    (e.apply s).registers = (e.apply t).registers := by
  obtain ⟨hkey, hblock, hopnd, hresult, hsched, hvalid, herr⟩ := State.registers_eq_iff.mp h
  refine State.registers_eq_iff.mpr ?_
  cases e <;> simp [Effect.apply, *]

/-- The completion of a command writes the same registers the same values whatever the hosts, the turns and the
datapath are (R215). -/
theorem State.complete_registers {s t w : State} {f g : Flight} (hs : s.flight = some f) (ht : t.flight = some g)
    (hcmd : g.cmd = f.cmd) (hsnap : g.snap = f.snap) (hreg : t.registers = s.registers)
    (hw : s.complete = .next w) : ∃ u, t.complete = .next u ∧ u.registers = w.registers := by
  cases hd : decode f.cmd with
  | ok i =>
    obtain ⟨e, he⟩ := exec_effect i f.snap
    have hso : s.operands = f.snap := State.operands_of_flight hs
    have hto : t.operands = f.snap := (State.operands_of_flight ht).trans hsnap
    rw [State.complete_of_decode_ok hs hd, he s hso] at hw
    obtain rfl := Host.Outcome.next.inj hw
    exact ⟨_, (State.complete_of_decode_ok ht (hcmd ▸ hd)).trans (he t hto), e.apply_registers hreg⟩
  | error e =>
    rw [State.complete_of_decode_error hs hd] at hw
    obtain rfl := Host.Outcome.next.inj hw
    exact ⟨_, State.complete_of_decode_error ht (hcmd ▸ hd),
      Effect.apply_registers (.error .illegalCommand) hreg⟩

/-! ### Running -/

/-- One step, then n more. -/
theorem run_succ {s t : State} (h : step s = .next t) (n : Nat) :
    Host.Core.run core (n + 1) s = Host.Core.run core n t := by
  have hstep : core.step s = .next t := h
  simp only [Host.Core.run, hstep]

/-- From s the machine comes to a state with the property P in at most n steps. -/
def Reaches (P : State → Prop) (n : Nat) (s : State) : Prop :=
  ∃ m ≤ n, ∃ u, Host.Core.run core m s = .next u ∧ P u

theorem Reaches.here {P : State → Prop} {s : State} (h : P s) : Reaches P 0 s := ⟨0, Nat.le_refl 0, s, rfl, h⟩

theorem Reaches.step {P : State → Prop} {n : Nat} {s t : State} (hs : step s = .next t) (ht : Reaches P n t) :
    Reaches P (n + 1) s := by
  obtain ⟨m, hm, u, hu, hP⟩ := ht
  exact ⟨m + 1, Nat.succ_le_succ hm, u, (run_succ hs m).trans hu, hP⟩

theorem Reaches.mono {P : State → Prop} {m n : Nat} {s : State} (h : Reaches P m s) (hmn : m ≤ n) :
    Reaches P n s := by
  obtain ⟨k, hk, hu⟩ := h
  exact ⟨k, hk.trans hmn, hu⟩

/-! ### One host alone -/

/-- A single host has the turn when it is listed, or when no turn is listed and the core is idle (R69, R272). -/
theorem step_of_single_host {s : State} {h : HostAgent} {st : HostStmt} (hh : s.hosts = [h])
    (hst : h.prog[h.pc]? = some st)
    (ht : s.turns.head? = some (.host 0) ∨ s.turns = [] ∧ s.flight = none) :
    step s = s.popTurn.hostStmt 0 h st := by
  have hturn : s.popTurn.hostTurn 0 = s.popTurn.hostStmt 0 h st := by simp [State.hostTurn, hh, hst]
  obtain hhead | ⟨hnil, hf⟩ := ht
  · obtain ⟨rest, hrest⟩ := List.head?_eq_some_iff.mp hhead
    rw [← hturn]
    simp [step, hrest, State.runTurn, State.popTurn]
  · have hpop : s.popTurn = s := by cases s; simp_all [State.popTurn]
    have hactive : s.activeHost = 0 := by
      obtain ⟨hlt, -⟩ := List.getElem?_eq_some_iff.mp hst
      simp [State.activeHost, hh, HostAgent.finished, hlt]
    rw [← hturn, hpop]
    simp [step, hnil, State.idleTurn, State.busy, hf, hactive]

/-- A read of STATUS puts the STATUS word in the host's variable (R88, R210). -/
theorem State.hostStmt_rdStatus (s : State) (k t : Nat) (h : HostAgent) :
    s.hostStmt k h (rdReg .status t) = .next (s.setHost k (h.assign t s.statusWord)) := rfl

/-- The WAIT loop's jump (R88). -/
theorem State.hostStmt_test (s : State) (k t L : Nat) (h : HostAgent) :
    s.hostStmt k h (.ifGoto (.bit (.var t) 0) L) =
      .next (s.setHost k (if (varsGet h.vars t).getLsbD 0 then h.jump L else h.advance)) := rfl

/-- The value just read from STATUS shows BUSY in bit 0 (R28). -/
theorem varsGet_assign_status {h : HostAgent} (hvars : varsWf h.vars = true) (t : Nat) (s : State) :
    (varsGet (h.assign t s.statusWord).vars t).getLsbD 0 = s.busy := by
  rw [← s.statusWord_getLsbD_zero]
  exact congrArg (·.getLsbD 0) (varsGet_varsSet_self t s.statusWord hvars)

/-! ### The WAIT loop -/

/-- A host in the WAIT loop at L of a program: about to read STATUS, or about to jump back on a value that showed
BUSY = 1 (R88). -/
structure InWait (prog : List HostStmt) (L t : Nat) (h : HostAgent) : Prop where
  prog_eq : h.prog = prog
  vars_wf : varsWf h.vars = true
  in_loop : h.pc = L ∨ h.pc = L + 1 ∧ (varsGet h.vars t).getLsbD 0 = true

/-- The WAIT loop at L is over and the registers are w's. -/
def WaitOver (prog : List HostStmt) (L : Nat) (w u : State) : Prop :=
  u.busy = false ∧ u.hosts.map HostAgent.pc = [L + 2] ∧ u.hosts.map HostAgent.prog = [prog] ∧
    u.registers = w.registers

/-- An idle core with w's registers, no turn listed, and h its one host. -/
structure IdleWith (w : State) (h : HostAgent) (s : State) : Prop where
  hosts_eq : s.hosts = [h]
  turns_nil : s.turns = []
  flight_none : s.flight = none
  registers_eq : s.registers = w.registers

/-- The host of an idle core has the turn. -/
theorem IdleWith.step_eq {w s : State} {h : HostAgent} {st : HostStmt} (hi : IdleWith w h s)
    (hst : h.prog[h.pc]? = some st) : step s = s.popTurn.hostStmt 0 h st :=
  step_of_single_host hi.hosts_eq hst (.inr ⟨hi.turns_nil, hi.flight_none⟩)

/-- The core stays idle while its host moves. -/
theorem IdleWith.setHost {w s : State} {h : HostAgent} (hi : IdleWith w h s) (h' : HostAgent) :
    IdleWith w h' (s.popTurn.setHost 0 h') where
  hosts_eq := by simp [hi.hosts_eq]
  turns_nil := by simp [hi.turns_nil]
  flight_none := hi.flight_none
  registers_eq := hi.registers_eq

section
variable {prog : List HostStmt} {L t : Nat} (hread : prog[L]? = some (rdReg .status t))
  (htest : prog[L + 1]? = some (.ifGoto (.bit (.var t) 0) L))
include hread htest

/-- On its turn a host in the loop of a busy core stays in the loop and touches nothing of the core. -/
theorem InWait.step_of_busy {s : State} {h : HostAgent} (hw : InWait prog L t h) (hh : s.hosts = [h])
    (ht : s.turns.head? = some (.host 0)) (hb : s.busy = true) :
    ∃ h', step s = .next (s.popTurn.setHost 0 h') ∧ InWait prog L t h' := by
  obtain ⟨rfl, hvars, hpc | ⟨hpc, hbit⟩⟩ := hw
  · refine ⟨h.assign t s.statusWord, ?_, rfl, varsSet_wf t _ hvars, .inr ⟨congrArg (· + 1) hpc, ?_⟩⟩
    · exact step_of_single_host hh (by rw [hpc, hread]) (.inl ht)
    · rw [varsGet_assign_status hvars, hb]
  · refine ⟨h.jump L, ?_, rfl, hvars, .inl rfl⟩
    rw [step_of_single_host hh (by rw [hpc, htest]) (.inl ht), State.hostStmt_test, if_pos hbit]

section
variable {w s : State} {h : HostAgent} (hi : IdleWith w h s) (hprog : h.prog = prog)
include hi hprog

omit hread in
/-- A host that has read BUSY = 0 does not jump back. -/
theorem IdleWith.reaches_after_test (hpc : h.pc = L + 1) (hbit : (varsGet h.vars t).getLsbD 0 = false) :
    Reaches (WaitOver prog L w) 1 s := by
  have hstep : step s = .next (s.popTurn.setHost 0 h.advance) := by
    rw [hi.step_eq (by rw [hprog, hpc, htest]), State.hostStmt_test, if_neg (by rw [hbit]; decide)]
  have hi' := hi.setHost h.advance
  refine .step hstep (.here ⟨(State.busy_eq_false_iff _).mpr hi'.flight_none, ?_, ?_, hi'.registers_eq⟩)
  · simp [hi.hosts_eq, HostAgent.advance, hpc]
  · simp [hi.hosts_eq, HostAgent.advance, hprog]

/-- A host about to read STATUS reads BUSY = 0. -/
theorem IdleWith.reaches_after_read (hvars : varsWf h.vars = true) (hpc : h.pc = L) :
    Reaches (WaitOver prog L w) 2 s := by
  have hbit := varsGet_assign_status hvars t s.popTurn
  rw [(State.busy_eq_false_iff s.popTurn).mpr hi.flight_none] at hbit
  refine .step ((hi.step_eq (by rw [hprog, hpc, hread])).trans (s.popTurn.hostStmt_rdStatus 0 t h)) ?_
  exact (hi.setHost _).reaches_after_test htest hprog (congrArg (· + 1) hpc) hbit

/-- A host about to jump back on an old value reads STATUS once more. -/
theorem IdleWith.reaches_after_jump (hvars : varsWf h.vars = true) (hpc : h.pc = L + 1)
    (hbit : (varsGet h.vars t).getLsbD 0 = true) : Reaches (WaitOver prog L w) 3 s := by
  have hstep : step s = .next (s.popTurn.setHost 0 (h.jump L)) := by
    rw [hi.step_eq (by rw [hprog, hpc, htest]), State.hostStmt_test, if_pos hbit]
  exact .step hstep ((hi.setHost (h.jump L)).reaches_after_read hread htest hprog hvars rfl)

end

/-- A host in the loop of an idle core leaves it in at most three steps. -/
theorem InWait.reaches_waitOver {w s : State} {h : HostAgent} (hw : InWait prog L t h) (hi : IdleWith w h s) :
    Reaches (WaitOver prog L w) 3 s := by
  obtain ⟨hprog, hvars, hpc | ⟨hpc, hbit⟩⟩ := hw
  · exact (hi.reaches_after_read hread htest hprog hvars hpc).mono (by decide)
  · exact hi.reaches_after_jump hread htest hprog hvars hpc hbit

end

/-- A core with a command in flight whose completion leaves w's registers, and h its one host. -/
structure BusyWith (w : State) (h : HostAgent) (s : State) : Prop where
  hosts_eq : s.hosts = [h]
  busy : s.busy = true
  completes : ∃ u, s.complete = .next u ∧ u.registers = w.registers

/-- Nothing that keeps the registers, the command word and the latched operands matters to the completion. -/
theorem BusyWith.of_same_command {w s s' : State} {h h' : HostAgent} (hb : BusyWith w h s)
    (hhosts : s'.hosts = [h']) (hreg : s'.registers = s.registers)
    (hfl : ∀ f, s.flight = some f → ∃ g, s'.flight = some g ∧ g.cmd = f.cmd ∧ g.snap = f.snap) :
    BusyWith w h' s' := by
  obtain ⟨f, hf⟩ := s.busy_iff.mp hb.busy
  obtain ⟨g, hg, hcmd, hsnap⟩ := hfl f hf
  obtain ⟨u, hu, huw⟩ := hb.completes
  obtain ⟨u', hu', huu⟩ := State.complete_registers hf hg hcmd hsnap hreg hu
  exact ⟨hhosts, s'.busy_iff.mpr ⟨g, hg⟩, u', hu', huu.trans huw⟩

/-- The host moves while the command stays in flight. -/
theorem BusyWith.setHost {w s : State} {h : HostAgent} (hb : BusyWith w h s) (h' : HostAgent) :
    BusyWith w h' (s.popTurn.setHost 0 h') :=
  hb.of_same_command (by simp [hb.hosts_eq]) rfl fun f hf => ⟨f, hf, rfl, rfl⟩

/-- A cycle keeps the command in flight. -/
theorem BusyWith.cycleOnce {w s : State} {h : HostAgent} (hb : BusyWith w h s) :
    BusyWith w h s.popTurn.cycleOnce :=
  hb.of_same_command hb.hosts_eq rfl fun f hf =>
    ⟨f.advance, by simp [hf], f.advance_cmd, f.advance_snap⟩

/-- With no turn listed the command completes. -/
theorem BusyWith.step_of_no_turn {w s : State} {h : HostAgent} (hb : BusyWith w h s) (ht : s.turns = []) :
    ∃ u, step s = .next u ∧ IdleWith w h u := by
  obtain ⟨f, hf⟩ := s.busy_iff.mp hb.busy
  obtain ⟨u, hu, huw⟩ := hb.completes
  obtain ⟨u', hu', hfl, hturns, hhosts, -⟩ := State.complete_of_flight hf
  obtain rfl : u' = u := Host.Outcome.next.inj (hu'.symm.trans hu)
  exact ⟨u', (Machine.step_of_no_turn hf ht).trans hu, hhosts.trans hb.hosts_eq, hturns.trans ht, hfl, huw⟩

/-- A host in the loop leaves it, however long the schedule of its turns and the sequencer's cycles is: by induction
on that schedule, at whose end the command completes. -/
theorem InWait.reaches_waitOver_of_busy {prog : List HostStmt} {L t : Nat}
    (hread : prog[L]? = some (rdReg .status t)) (htest : prog[L + 1]? = some (.ifGoto (.bit (.var t) 0) L))
    {w : State} (ts : List Turn) (hts : ∀ x ∈ ts, x = .host 0 ∨ x = .cycle) {s : State} {h : HostAgent}
    (ht : s.turns = ts) (hw : InWait prog L t h) (hb : BusyWith w h s) :
    Reaches (WaitOver prog L w) (ts.length + 4) s := by
  induction ts generalizing s h with
  | nil =>
    obtain ⟨u, hu, hi⟩ := hb.step_of_no_turn ht
    exact .step hu (hw.reaches_waitOver hread htest hi)
  | cons x rest ih =>
    rw [List.length_cons, Nat.add_right_comm]
    have hrest : ∀ y ∈ rest, y = .host 0 ∨ y = .cycle := fun y hy => hts y (List.mem_cons_of_mem x hy)
    obtain rfl | rfl := hts x List.mem_cons_self
    · obtain ⟨h', hstep, hw'⟩ := hw.step_of_busy hread htest hb.hosts_eq (by simp [ht]) hb.busy
      exact .step hstep (ih hrest (by simp [ht]) hw' (hb.setHost h'))
    · have hstep : Machine.step s = .next s.popTurn.cycleOnce := by
        simp [Machine.step, ht, State.runTurn, State.popTurn]
      exact .step hstep (ih hrest (by simp [ht]) hw hb.cycleOnce)

/-- Settles O13: the host stays in its loop until the schedule is used up, the command then completes, and at most
three more statements lead out of the loop. -/
theorem waitTerminates : Obligations.WaitTerminates := by
  intro s w h L t hhosts hread htest hpc hvars hts hbusy hcomplete
  have hw : InWait h.prog L t h := ⟨rfl, hvars, .inl hpc⟩
  have hb : BusyWith w h s := ⟨hhosts, hbusy, w, hcomplete, rfl⟩
  obtain ⟨n, hn, u, hrun, hidle, hpcs, hprogs, hreg⟩ :=
    hw.reaches_waitOver_of_busy hread htest s.turns hts rfl hb
  exact ⟨n, u, hn, hrun, hidle, hpcs, hprogs, State.registers_eq_iff.mp hreg⟩

end Sys2Proof.Machine
end

section
/-! PROOFS of the statements about the field and the S-box tables (40_field_arithmetic.md, 10_state.md section 5): O51,
O52. -/

namespace Sys2Proof.Machine

/-- The sum of two lists of bytes is the sum of their sums (R103). -/
theorem gadd_append (bs cs : List Byte) : gadd (bs ++ cs) = gadd bs ^^^ gadd cs := by
  induction bs with
  | nil => exact BitVec.zero_xor.symm
  | cons b bs ih => rw [List.cons_append, gadd_cons, gadd_cons, ih, BitVec.xor_assoc]

theorem gadd_pair (a b : Byte) : gadd [a, b] = a ^^^ b := by
  simp

/-- Multiplying by 0x01 adds in the first round of the loop only, however many follow. -/
theorem gmulLoop_one_right (n : Nat) (a : Byte) : gmulLoop (n + 1) a 1#8 0#8 = a := by
  have hshift : 1#8 >>> 1 = 0#8 := rfl
  rw [gmulLoop_succ, hshift, gmulLoop_zero_right]
  exact BitVec.xor_zero

/-- Multiplying by 0x02 is the doubling step: the first round of the loop doubles, and only the second adds (R106). -/
theorem gmul_two_right (a : Byte) : gmul a 0x02 = xtime a := by
  have hshift : 2#8 >>> 1 = 1#8 := rfl
  change gmulLoop (7 + 1) a 2#8 0#8 = xtime a
  rw [gmulLoop_succ, hshift, gmulLoop_one_right 6]
  exact BitVec.zero_xor

/-- Settles O51: gmul is multiplication of polynomials modulo 0x11B, and gadd is XOR. -/
theorem fieldLaws : Obligations.FieldLaws := by
  refine ⟨gmul_comm, fun a b c => ?_, fun a => ⟨gmul_zero_right a, gmul_zero_left a, gmul_one_right a⟩, rfl,
    gadd_cons, fun bs cs => ?_, fun a b c => ?_, fun a => ⟨rfl, gmul_two_right a⟩⟩
  · rw [gadd_pair, gadd_pair, gmul_xor_right]
  · rw [gadd_append, gadd_pair]
  · simp only [gadd_pair]
    exact ⟨BitVec.xor_comm a b, BitVec.xor_assoc a b c, BitVec.xor_self, BitVec.xor_zero⟩

/-- Each table undoes the other (R37). -/
theorem sboxRom_eq_iff (x y : Byte) : sboxRom x = y ↔ x = invSboxRom y := by
  constructor
  · rintro rfl
    exact (invSboxRom_sboxRom x).symm
  · rintro rfl
    exact sboxRom_invSboxRom y

/-- gfInv gives the multiplicative inverse of every byte but 0, and R38's formula of it the table's entry. -/
theorem gfInv_inverts_and_gives_sboxRom : ∀ x : Byte, (x ≠ 0 → gmul x (gfInv x) = 1) ∧
    sboxRom x = gfInv x ^^^ rotl8 (gfInv x) 1 ^^^ rotl8 (gfInv x) 2 ^^^ rotl8 (gfInv x) 3 ^^^
      rotl8 (gfInv x) 4 ^^^ 0x63 := by
  decide +kernel

/-- No entry of SBOX is the complement of its index (R165). -/
theorem sboxRom_ne_complement : ∀ b : Byte, sboxRom b ≠ b ^^^ 0xFF := by
  decide +kernel

/-- Settles O52: the tables undo each other, and the formula is computed for each of the 256 bytes. -/
theorem sboxTablesAndFormula : Obligations.SboxTablesAndFormula :=
  ⟨fun y x => sboxRom_eq_iff x y, gfInv_inverts_and_gives_sboxRom, by decide +kernel,
    fun b => ⟨sboxRom_ne_self b, sboxRom_ne_complement b⟩⟩

end Sys2Proof.Machine
end

section
/-! PROOFS of the laws of the round transforms and the ciphers (42_round_transform.md, 43_cipher_engine.md): O53, O55,
O56, O57, O58. -/

namespace Sys2Proof.Machine

/-! ### The round transforms -/

/-- A State on which MixColumns and ShiftRows do not commute (R165). -/
theorem mixColumns_shiftRows_not_comm :
    mixColumns (shiftRows #v[0x01020304, 0, 0, 0] false) false ≠
      shiftRows (mixColumns #v[0x01020304, 0, 0, 0] false) false := by
  decide

/-- Settles O53: each law holds byte by byte, and one State tells MixColumns after ShiftRows from ShiftRows after
MixColumns. -/
theorem inverseTransformsUndo : Obligations.InverseTransformsUndo :=
  ⟨fun s => ⟨subBytes_subBytes_not s, shiftRows_shiftRows_not s, mixColumns_mixColumns_not s,
    subBytes_shiftRows s⟩, _, mixColumns_shiftRows_not_comm⟩

/-! ### The rounds undone -/

/-- ShiftRows after SubBytes, in either direction: what every round but the first begins with (R190, R192). -/
def shiftSub (s : Block) (inverse : Bool) : Block := shiftRows (subBytes s inverse) inverse

/-- Each direction of ShiftRows after SubBytes undoes the other, for the two commute (R165). -/
theorem shiftSub_shiftSub_not (s : Block) (inv : Bool) : shiftSub (shiftSub s inv) (!inv) = s := by
  rw [shiftSub, shiftSub, subBytes_shiftRows, subBytes_subBytes_not, shiftRows_shiftRows_not]

@[simp] theorem shiftSub_true_shiftSub_false (s : Block) : shiftSub (shiftSub s false) true = s :=
  shiftSub_shiftSub_not s false

@[simp] theorem shiftSub_false_shiftSub_true (s : Block) : shiftSub (shiftSub s true) false = s :=
  shiftSub_shiftSub_not s true

@[simp] theorem mixColumns_true_mixColumns_false (s : Block) : mixColumns (mixColumns s false) true = s :=
  mixColumns_mixColumns_not s false

@[simp] theorem mixColumns_false_mixColumns_true (s : Block) : mixColumns (mixColumns s true) false = s :=
  mixColumns_mixColumns_not s true

section
variable (w : Schedule) (s : Block) (r : Nat)

/-- A middle round of Cipher (R190). -/
theorem encMiddle_eq :
    encMiddle w s r = addRoundKey (mixColumns (shiftSub s false) false) (roundKey w r) := rfl

/-- A middle round of InvCipher is the textbook one, for InverseMixColumns is linear (R192, R195). -/
theorem textbookMiddle_eq_decMiddle : textbookMiddle w s r = decMiddle w s r :=
  mixColumns_addRoundKey _ _ true

/-- A middle round of InvCipher with the plain round key (R192, R195). -/
theorem decMiddle_eq : decMiddle w s r = mixColumns (addRoundKey (shiftSub s true) (roundKey w r)) true :=
  (textbookMiddle_eq_decMiddle w s r).symm

/-- A middle round of InvCipher undoes the same round of Cipher, up to the start of the next round. -/
theorem decMiddle_shiftSub_encMiddle : decMiddle w (shiftSub (encMiddle w s r) false) r = shiftSub s false := by
  rw [decMiddle_eq, encMiddle_eq, shiftSub_true_shiftSub_false, addRoundKey_addRoundKey,
    mixColumns_true_mixColumns_false]

/-- A middle round of Cipher undoes the same round of InvCipher, up to the start of the next round. -/
theorem encMiddle_shiftSub_decMiddle : encMiddle w (shiftSub (decMiddle w s r) true) r = shiftSub s true := by
  rw [encMiddle_eq, decMiddle_eq, shiftSub_false_shiftSub_true, mixColumns_false_mixColumns_true,
    addRoundKey_addRoundKey]

/-- The final round of Cipher, without its AddRoundKey (R190). -/
theorem addRoundKey_encFinal : addRoundKey (encFinal w s) (roundKey w 14) = shiftSub s false :=
  addRoundKey_addRoundKey _ _

/-- The final round of InvCipher, without its AddRoundKey (R192). -/
theorem addRoundKey_decFinal : addRoundKey (decFinal w s) (roundKey w 0) = shiftSub s true :=
  addRoundKey_addRoundKey _ _

/-- The final round of InvCipher undoes the start of Cipher. -/
theorem decFinal_shiftSub : decFinal w (shiftSub s false) = addRoundKey s (roundKey w 0) :=
  congrArg (addRoundKey · (roundKey w 0)) (shiftSub_true_shiftSub_false s)

/-- The final round of Cipher undoes the start of InvCipher. -/
theorem encFinal_shiftSub : encFinal w (shiftSub s true) = addRoundKey s (roundKey w 14) :=
  congrArg (addRoundKey · (roundKey w 14)) (shiftSub_false_shiftSub_true s)

end

/-- Settles O57: the two orders have the same middle rounds. -/
theorem textbookDecryptionAgrees : Obligations.TextbookDecryptionAgrees := by
  intro w s
  have hmiddle : textbookMiddle w = decMiddle w := by
    funext b r
    exact textbookMiddle_eq_decMiddle w b r
  rw [textbookInvCipher, invCipher, hmiddle]

/-- Rounds undone one by one, the last first. -/
theorem foldl_reverse_undoes {f g : Block → Nat → Block} {φ : Block → Block}
    (hundo : ∀ s r, g (φ (f s r)) r = φ s) (rounds : List Nat) (s : Block) :
    rounds.reverse.foldl g (φ (rounds.foldl f s)) = φ s := by
  induction rounds generalizing s with
  | nil => rfl
  | cons r rounds ih =>
    simp only [List.reverse_cons, List.foldl_append, List.foldl_cons, List.foldl_nil, ih, hundo]

/-- InvCipher undoes Cipher (R194). -/
theorem invCipher_cipher (w : Schedule) (s : Block) : invCipher w (cipher w s) = s := by
  have hrounds := foldl_reverse_undoes (φ := (shiftSub · false)) (decMiddle_shiftSub_encMiddle w)
    middleRounds (addRoundKey s (roundKey w 0))
  rw [invCipher, cipher, addRoundKey_encFinal, hrounds, decFinal_shiftSub, addRoundKey_addRoundKey]

/-- Cipher undoes InvCipher (R194). -/
theorem cipher_invCipher (w : Schedule) (s : Block) : cipher w (invCipher w s) = s := by
  have hrounds := foldl_reverse_undoes (φ := (shiftSub · true)) (encMiddle_shiftSub_decMiddle w)
    middleRounds.reverse (addRoundKey s (roundKey w 14))
  rw [List.reverse_reverse] at hrounds
  rw [cipher, invCipher, addRoundKey_decFinal, hrounds, encFinal_shiftSub, addRoundKey_addRoundKey]

/-- Settles O56: each cipher undoes the other round by round. -/
theorem cipherRoundTrip : Obligations.CipherRoundTrip := fun w s =>
  ⟨invCipher_cipher w s, cipher_invCipher w s⟩

/-! ### Commands issued and completed one after another -/

/-- What a State command leaves of an idle core: the new State, and ERRCODE 0. -/
def State.afterBlock (s : State) (b : Block) : State := { s with block := b, errcode := 0 }

section
variable {s : State} (hf : s.flight = none) (w : Word)
include hf

/-- A command that writes the State, issued on an idle core and completed, leaves the core idle as it was. -/
theorem exec_issue_eq_afterBlock {i : Instr} {b : Block}
    (h : exec i (s.issue w) = .next { s.issue w with block := b, errcode := 0, flight := none }) :
    exec i (s.issue w) = .next (s.afterBlock b) := by
  rw [h]
  simp [State.afterBlock, State.issue, hf]

/-- INV_MIX_COLUMNS issued on an idle core and completed (R161). -/
theorem exec_invMixColumns_issue :
    exec .invMixColumns (s.issue w) = .next (s.afterBlock (mixColumns s.block true)) := by
  have hdo := exec_transform (i := .invMixColumns) (g := (mixColumns · true)) (fun _ => rfl) (s.issue_flight w)
  exact exec_issue_eq_afterBlock hf w hdo

variable (hk : s.keyValid = true)
include hk

/-- ADD_ROUND_KEY issued on an idle core with a schedule and completed (R163). -/
theorem exec_addRoundKey_issue {n : Nat} (hn : n ≤ 14) :
    exec (.addRoundKey n) (s.issue w) = .next (s.afterBlock (addRoundKey s.block (roundKey s.sched n))) := by
  obtain ⟨-, -, hdo⟩ := exec_roundKeyCommand (i := .addRoundKey) (g := id) (fun _ _ => rfl) n (s.issue_flight w)
  exact exec_issue_eq_afterBlock hf w (hdo hn hk)

/-- ADD_ROUND_KEY_IMC issued on an idle core with a schedule and completed (R164). -/
theorem exec_addRoundKeyImc_issue {n : Nat} (hn : n ≤ 14) : exec (.addRoundKeyImc n) (s.issue w) =
    .next (s.afterBlock (addRoundKey s.block (mixColumns (roundKey s.sched n) true))) := by
  obtain ⟨-, -, hdo⟩ :=
    exec_roundKeyCommand (i := .addRoundKeyImc) (g := (mixColumns · true)) (fun _ _ => rfl) n (s.issue_flight w)
  exact exec_issue_eq_afterBlock hf w (hdo hn hk)

/-- ENCRYPT issued on an idle core with a schedule and completed (R191). -/
theorem exec_encrypt_issue :
    exec (.encrypt 16) (s.issue w) = .next (s.afterBlock (cipher s.sched s.block)) := by
  obtain ⟨-, -, hdo⟩ := exec_blockCommand (i := .encrypt) (g := cipher) (fun _ _ => rfl) (s.issue_flight w)
  exact exec_issue_eq_afterBlock hf w (hdo hk)

/-- DECRYPT issued on an idle core with a schedule and completed (R193). -/
theorem exec_decrypt_issue :
    exec (.decrypt 16) (s.issue w) = .next (s.afterBlock (invCipher s.sched s.block)) := by
  obtain ⟨-, -, hdo⟩ := exec_blockCommand (i := .decrypt) (g := invCipher) (fun _ _ => rfl) (s.issue_flight w)
  exact exec_issue_eq_afterBlock hf w (hdo hk)

end

/-- A second State command that computes the first State again restores the core but for ERRCODE. -/
theorem State.afterBlock_afterBlock {s : State} {b b' : Block} (h : b' = s.block) :
    (s.afterBlock b).afterBlock b' = { s with errcode := 0 } := by
  subst h
  rfl

/-- Settles O55: adding a round key twice adds nothing, and InverseMixColumns of a sum is the sum of the
InverseMixColumns. -/
theorem addRoundKeySequences : Obligations.AddRoundKeySequences := by
  intro s n hn hf hk
  have hadd := exec_addRoundKey_issue hf (encode (.addRoundKey n)) hk hn
  have hmix := exec_invMixColumns_issue hf (encode .invMixColumns)
  have hlinear := mixColumns_addRoundKey s.block (roundKey s.sched n) true
  refine ⟨_, _, _, _, hadd, ?_, exec_invMixColumns_issue (s := s.afterBlock _) hf _, hmix,
    exec_addRoundKeyImc_issue (s := s.afterBlock _) hf _ hk hn, congrArg s.afterBlock hlinear⟩
  rw [exec_addRoundKey_issue (s := s.afterBlock _) hf _ hk hn]
  exact congrArg Host.Outcome.next (State.afterBlock_afterBlock (addRoundKey_addRoundKey _ _))

/-- Settles O58: each command computes the State the other began with. -/
theorem encryptDecryptRestoresTheState : Obligations.EncryptDecryptRestoresTheState := by
  refine fun s hf hk => ⟨⟨_, exec_encrypt_issue hf _ hk, ?_⟩, ⟨_, exec_decrypt_issue hf _ hk, ?_⟩⟩
  · rw [exec_decrypt_issue (s := s.afterBlock _) hf _ hk]
    exact congrArg Host.Outcome.next (State.afterBlock_afterBlock (invCipher_cipher s.sched s.block))
  · rw [exec_encrypt_issue (s := s.afterBlock _) hf _ hk]
    exact congrArg Host.Outcome.next (State.afterBlock_afterBlock (cipher_invCipher s.sched s.block))

end Sys2Proof.Machine
end
